-- ==== Sys2Proof/Word.lean ====
section
/-! DEFINITION. The words of the format: bytes, the host-visible widths, the Pixel (R11) and its default (R12), the
six tag classes (R60), and the two fixed-size tables that hold them. -/

namespace Sys2Proof

/-- `u8` of R9. -/
abbrev Byte := BitVec 8

/-- A 32-bit register or port of R24 and R28. -/
abbrev Word32 := BitVec 32

/-- `u64` of R9: the width of `pixel_count` and `bytes_consumed` (R6, COUNTER_BITS). -/
abbrev Counter := BitVec 64

/-- R11: four `u8` channels, compared by value. -/
structure Pixel where
  r : Byte
  g : Byte
  b : Byte
  a : Byte
deriving DecidableEq, Repr

/-- R12: `DEFAULT`, "opaque black". -/
def Pixel.opaqueBlack : Pixel := ⟨0, 0, 0, 255⟩

/-- The six classes of R60. -/
inductive TagClass where
  | literalRGBA
  | literalRGB
  | cachedIndex
  | smallDelta
  | lumaDelta
  | run
deriving DecidableEq, Repr

/-- R22: `W[0..7]`, `W[0]` the front. -/
abbrev Window := Vector Byte 8

/-- R23: 64 optional Pixel slots. Slot `i` is `some p` when `cache_valid[i]` = 1 and `cache_data[i]` = `p`, and
`none` when `cache_valid[i]` = 0. DESIGN CHOICE (safe, notes/assumptions/2.md): an empty slot holds no data. -/
abbrev Cache := Vector (Option Pixel) 64

/-- R24: the header buffer `H[0..13]`. -/
abbrev HeaderBuffer := Vector Byte 14

end Sys2Proof
end

