-- ==== Sys2Proof/Config.lean ====
section
/-! DEFINITION. What an implementation fixes: the one open parameter of the spec (R7) and its value on this hardware.
The model has no free value: no operation of the spec leaves its result open. -/

namespace Sys2Proof

/-- R7: which commits insert into the pixel cache. -/
inductive CachePolicy where
  /-- every committed pixel is inserted -/
  | all
  /-- only the pixels of LiteralRGB and LiteralRGBA are inserted -/
  | literalOnly
deriving DecidableEq, Repr

/-- R7: "This hardware takes `ALL`." -/
def Config.hardwarePolicy : CachePolicy := .all

end Sys2Proof
end

