-- ==== Sys2Proof/Syntax.lean ====
section
/-! DEFINITION. The instructions: one constructor per row of spec/opcode_table.json, with the operand values of the
assembler syntax (R64). -/

namespace Sys2Proof

/-- The records of the pixel stream (R57) and the end marker (R56). Deltas are the signed values after the bias is
subtracted (R59), not the stored fields. -/
inductive Instr where
  /-- R88: `FF r g b a` -/
  | literalRGBA (r g b a : Byte)
  /-- R87: `FE r g b` -/
  | literalRGB (r g b : Byte)
  /-- R89: a cache slot -/
  | cachedIndex (idx : Fin 64)
  /-- R91: deltas of red, green and blue, each -2..1 -/
  | smallDelta (dr dg db : Int)
  /-- R92: green delta -32..31, then red and blue deltas less the green one, each -8..7 -/
  | lumaDelta (dg drdg dbdg : Int)
  /-- R93: 1..62 copies of the previous pixel -/
  | run (count : Nat)
  /-- R76: the 8-byte end marker, tested at every opcode boundary before any tag is classified -/
  | endMarker
deriving DecidableEq, Repr

end Sys2Proof
end

