-- ==== Sys2Proof/WellFormed.lean ====
section
/-! DEFINITION. Well-formed instructions: the operand ranges of R64 ("An operand outside its range spells no record").
A byte operand and a slot number carry their ranges in their types. -/

namespace Sys2Proof

/-- The range of a SmallDelta operand (R59, R64). -/
abbrev smallDeltaRange (d : Int) : Prop := -2 ≤ d ∧ d ≤ 1

/-- The range of a LumaDelta green operand (R59, R64). -/
abbrev lumaGreenRange (d : Int) : Prop := -32 ≤ d ∧ d ≤ 31

/-- The range of a LumaDelta red or blue operand (R59, R64). -/
abbrev lumaDifferenceRange (d : Int) : Prop := -8 ≤ d ∧ d ≤ 7

/-- The range of a Run count (R59, R62, R64). -/
abbrev runRange (n : Nat) : Prop := 1 ≤ n ∧ n ≤ 62

/-- R64: every operand within its range. -/
def Instr.wellFormed : Instr → Bool
  | .literalRGBA _ _ _ _ => true
  | .literalRGB _ _ _ => true
  | .cachedIndex _ => true
  | .smallDelta dr dg db => decide (smallDeltaRange dr ∧ smallDeltaRange dg ∧ smallDeltaRange db)
  | .lumaDelta dg drdg dbdg =>
      decide (lumaGreenRange dg ∧ lumaDifferenceRange drdg ∧ lumaDifferenceRange dbdg)
  | .run n => decide (runRange n)
  | .endMarker => true

end Sys2Proof
end

