-- ==== Sys2Proof/Decode.lean ====
section
/-! DEFINITION. The decoder (R54 to R63), the encoder written from the same formats (R57, R64), and the two ways an
instruction word reaches the decoder: the window's eight bytes, and a word numbered as spec/opcode_table.json numbers it. -/

namespace Sys2Proof

/-! ### Fields -/

/-- `v[hi:lo]` of R9: the unsigned field of bits `hi` down to `lo`. -/
def field (v : Byte) (hi lo : Nat) : Nat := v.toNat / 2 ^ lo % 2 ^ (hi + 1 - lo)

/-- R56: `MARKER`, seven zero bytes and 0x01. -/
def marker : Window := #v[0x00, 0x00, 0x00, 0x00, 0x00, 0x00, 0x00, 0x01]

/-! ### Decoding -/

/-- R60: the total tag classifier, the two exact matches first (R61). -/
def classify (t : Byte) : TagClass :=
  if t = 0xFE then .literalRGB
  else if t = 0xFF then .literalRGBA
  else
    match field t 7 6 with
    | 0 => .cachedIndex
    | 1 => .smallDelta
    | 2 => .lumaDelta
    | _ => .run

/-- R58: operand bytes of a record by its class. -/
def TagClass.operandBytes : TagClass → Nat
  | .literalRGBA => 4
  | .literalRGB => 3
  | .cachedIndex => 0
  | .smallDelta => 0
  | .lumaDelta => 1
  | .run => 0

/-- R59: the record with tag `t`, its operands taken from the bytes after the tag. Bytes beyond the record's
length are not looked at. -/
def decodeRecord (t b1 b2 b3 b4 : Byte) : Instr :=
  match classify t with
  | .literalRGBA => .literalRGBA b1 b2 b3 b4
  | .literalRGB => .literalRGB b1 b2 b3
  | .cachedIndex => .cachedIndex (Fin.ofNat 64 (field t 5 0))
  | .smallDelta => .smallDelta ((field t 5 4 : Int) - 2) ((field t 3 2 : Int) - 2) ((field t 1 0 : Int) - 2)
  | .lumaDelta => .lumaDelta ((field t 5 0 : Int) - 32) ((field b1 7 4 : Int) - 8) ((field b1 3 0 : Int) - 8)
  | .run => .run (field t 5 0 + 1)

/-- R76 and R78: what the window holds at an opcode boundary. The marker check goes before the tag. -/
def decodeWindow (w : Window) : Instr :=
  if w = marker then .endMarker else decodeRecord w[0] w[1] w[2] w[3] w[4]

/-- Why a byte sequence is no record: only its length can be wrong (R62). -/
inductive DecodeError where
  /-- there is no tag byte -/
  | noTag
  /-- the bytes end before the operands of a record of this class -/
  | missingOperands (cls : TagClass)
deriving DecidableEq, Repr

/-- The first record (or end marker) of a byte sequence and the bytes after it (R55). -/
def decode : List Byte → Except DecodeError (Instr × List Byte)
  | [] => .error .noTag
  | t :: rest =>
    if (t :: rest).take 8 = marker.toList then .ok (.endMarker, rest.drop 7)
    else if rest.length < (classify t).operandBytes then .error (.missingOperands (classify t))
    else .ok (decodeRecord t (rest.getD 0 0) (rest.getD 1 0) (rest.getD 2 0) (rest.getD 3 0),
      rest.drop (classify t).operandBytes)

/-! ### Encoding -/

/-- R57 and R64: the bytes of an instruction. -/
def encode : Instr → List Byte
  | .literalRGBA r g b a => [0xFF, r, g, b, a]
  | .literalRGB r g b => [0xFE, r, g, b]
  | .cachedIndex i => [BitVec.ofNat 8 i.val]
  | .smallDelta dr dg db => [BitVec.ofInt 8 (0x40 + (dr + 2) * 16 + (dg + 2) * 4 + (db + 2))]
  | .lumaDelta dg drdg dbdg =>
      [BitVec.ofInt 8 (0x80 + (dg + 32)), BitVec.ofInt 8 ((drdg + 8) * 16 + (dbdg + 8))]
  | .run n => [BitVec.ofInt 8 (0xC0 + ((n : Int) - 1))]
  | .endMarker => marker.toList

/-- R58 and R56: the length of an instruction in bytes. -/
def Instr.length : Instr → Nat
  | .literalRGBA _ _ _ _ => 5
  | .literalRGB _ _ _ => 4
  | .cachedIndex _ => 1
  | .smallDelta _ _ _ => 1
  | .lumaDelta _ _ _ => 2
  | .run _ => 1
  | .endMarker => 8

/-- Byte `k` of a 32-bit header field, byte 0 the most significant (R41). -/
def bigEndianByte (v : Word32) (k : Nat) : Byte := BitVec.ofNat 8 (v.toNat / 2 ^ (8 * (3 - k)))

/-- R54 and the `HEADER` pseudo-instruction of R65: the 14 header bytes. -/
def encodeHeader (m0 m1 m2 m3 : Byte) (width height : Word32) (channels colorspace : Byte) : List Byte :=
  [m0, m1, m2, m3,
   bigEndianByte width 0, bigEndianByte width 1, bigEndianByte width 2, bigEndianByte width 3,
   bigEndianByte height 0, bigEndianByte height 1, bigEndianByte height 2, bigEndianByte height 3,
   channels, colorspace]

/-- A line of this spec's assembly text: a record or `END` (R64, R65), `HEADER`, or `.byte` (R65). -/
inductive AsmLine where
  | instr (i : Instr)
  | header (m0 m1 m2 m3 : Byte) (width height : Word32) (channels colorspace : Byte)
  | bytes (bs : List Byte)
deriving DecidableEq, Repr

/-- R64: an operand outside its range "spells no record, and the assembler refuses it". -/
def AsmLine.assemble : AsmLine → Option (List Byte)
  | .instr i => if i.wellFormed then some (encode i) else none
  | .header m0 m1 m2 m3 w h ch cs => some (encodeHeader m0 m1 m2 m3 w h ch cs)
  | .bytes bs => some bs

/-- The bytes of a text, line by line. -/
def assemble : List AsmLine → Option (List Byte)
  | [] => some []
  | l :: ls =>
    match l.assemble, assemble ls with
    | some bs, some rest => some (bs ++ rest)
    | _, _ => none

/-! ### Words numbered as the opcode table numbers them -/

/-- Byte `k` of a word of `nbits` bits whose bit 0 is the least significant bit of its first byte; every bit above
`nbits` is 0. -/
def tableByte (nbits w k : Nat) : Byte := BitVec.ofNat 8 (w % 2 ^ nbits / 2 ^ (8 * k))

/-- The eight bytes of such a word, the longest instruction's length. The table's one row of 64 bits, END_MARKER, gives
its match as the big-endian value of R56, 1, and no other row has 64 bits: that word is the marker too
(DEDUCED, notes/assumptions/11.md). -/
def tableWindow (nbits w : Nat) : Window :=
  if nbits = 64 ∧ w % 2 ^ 64 = 1 then marker
  else
    #v[tableByte nbits w 0, tableByte nbits w 1, tableByte nbits w 2, tableByte nbits w 3,
       tableByte nbits w 4, tableByte nbits w 5, tableByte nbits w 6, tableByte nbits w 7]

/-- The instruction the decoder reads from such a word. -/
def decodeTableWord (nbits w : Nat) : Option Instr :=
  match decode (tableWindow nbits w).toList with
  | .ok (i, _) => some i
  | .error _ => none

end Sys2Proof
end

