-- ==== Sys2Proof/Machine/State.lean ====
section
/-! DEFINITION. The state of the decoder as plain data (10_state.md), the launch data of R8 beside it, the reasons a
step can stop, and the state after reset (R110). -/

namespace Sys2Proof.Machine

/-- R15. -/
inductive Phase where
  | idle
  | awaitingHeader
  | streaming
  | done
  | error
deriving DecidableEq, Repr

/-- R16 and R95. -/
inductive ErrCode where
  | none
  | malformedHeader
  | truncatedStream
  | invalidCacheReference
  /-- R99: "retained defensively"; no rule raises it, and nothing in this model does. -/
  | unknownOpcode
deriving DecidableEq, Repr

/-- A record's pixel while it is being emitted (R27): the pixel on the output port, the class of its record, and how
many more copies of it follow the offered one (nonzero only in a Run). -/
structure Emission where
  pixel : Pixel
  cls : TagClass
  more : Nat
deriving DecidableEq, Repr

/-- The hidden micro-state of R27, as the program point of the pseudocode. -/
inductive Micro where
  /-- no operation is in progress -/
  | idle
  /-- R66: header byte `k` is being read -/
  | header (k : Nat)
  /-- R74: priming byte `k` is being read -/
  | prime (k : Nat)
  /-- R75: an opcode boundary; the marker check comes next -/
  | boundary
  /-- R32: a pixel is offered and not yet accepted -/
  | emit (e : Emission)
  /-- R80: an operand byte's replacement is being read, and `n` more follow it -/
  | refill (n : Nat)
deriving DecidableEq, Repr

/-- What the host drives on the input ports (R28) at one rising edge of `clk`. `in_data` is not here: it is the next
byte of the source (R113 (a), notes/assumptions/8.md). -/
structure Edge where
  rst : Bool
  /-- `none`: `start` = 0; `some S`: `start` = 1, and `S` is the source of the decode it asks for (R8, R112) -/
  start : Option (List Byte)
  inValid : Bool
  inEof : Bool
  outReady : Bool
deriving DecidableEq, Repr

/-- Faults that stop the machine: none. An error of the spec is the entry to the ERROR phase (R100), which is a next
state; no rule stops the decoder in any other way, so no meaning raises a fault. -/
inductive Fault
deriving DecidableEq, Repr

/-- Refusals. -/
inductive Refusal where
  /-- Raised only by an arm of `exec` whose instruction has no meaning yet; safe. No arm raises it. -/
  | notModelled (mnemonic : String)
deriving DecidableEq, Repr

/-- The decoder's registers (10_state.md), its hidden program point (R27), and the launch's data (R7, R8, R30). -/
structure State where
  /-- R15 -/
  phase : Phase
  /-- R16 -/
  errCode : ErrCode
  /-- R18: `bytes_consumed` -/
  bytesConsumed : Counter
  /-- R20: `pixel_count` -/
  pixelCount : Counter
  /-- R21 -/
  prev : Pixel
  /-- R22: `W[0..7]` -/
  window : Window
  /-- R23: `cache_data` and `cache_valid` -/
  cache : Cache
  /-- R24: `H[0..13]` -/
  header : HeaderBuffer
  /-- R25: `hdr_valid` -/
  hdrValid : Bool
  /-- R27 -/
  micro : Micro
  /-- R31: the byte source `S` of the current decode, whole -/
  source : List Byte
  /-- R13: `pos`, the number of bytes of `S` read -/
  pos : Nat
  /-- R32: `O`, the pixels accepted in the current decode, oldest first -/
  sink : List Pixel
  /-- R8: the host's schedule, the clock edges to come; where it is empty the host serves every port at once -/
  schedule : List Edge
  /-- R7: `P_CACHE_POLICY`; no rule writes it -/
  policy : CachePolicy
deriving DecidableEq, Repr

/-- R110: the state after reset, with nothing launched: no source, no pixel accepted, no edge scheduled. -/
def State.reset : State where
  phase := .idle
  errCode := .none
  bytesConsumed := 0
  pixelCount := 0
  prev := Pixel.opaqueBlack
  window := Vector.replicate 8 0x00
  cache := Vector.replicate 64 none
  header := Vector.replicate 14 0x00
  hdrValid := false
  micro := .idle
  source := []
  pos := 0
  sink := []
  schedule := []
  policy := Config.hardwarePolicy

end Sys2Proof.Machine
end

