-- ==== Sys2Proof/Machine/Ops.lean ====
section
/-! DEFINITION. The primitives of R13 over the state, each defined once: reading a byte, shifting the window, the
pixel cache, emitting and committing a pixel, refilling; error entry (R100), and the two ways out of a terminal phase:
`start` (R111) and `rst` (R110). -/

namespace Sys2Proof.Machine

/-! ### The byte source and the window -/

/-- `S[pos]`, or nothing where `pos >= N` (R31). -/
def State.nextByte? (s : State) : Option Byte := s.source[s.pos]?

/-- R38: `Shift(b)`. -/
def shift (b : Byte) (w : Window) : Window := #v[w[1], w[2], w[3], w[4], w[5], w[6], w[7], b]

/-- The bookkeeping of one `ReadByte()` that delivers a byte (R13). -/
def State.consume (s : State) : State := { s with bytesConsumed := s.bytesConsumed + 1, pos := s.pos + 1 }

/-- `Shift(ReadByte())` once the byte read is known (R45: every read in STREAMING is followed by its shift). -/
def State.readShift (b : Byte) (s : State) : State := { s.consume with window := shift b s.window }

/-! ### The pixel cache -/

/-- R33: the cache slot of a pixel. -/
def cacheHash (p : Pixel) : Fin 64 :=
  Fin.ofNat 64 (p.r.toNat * 3 + p.g.toNat * 5 + p.b.toNat * 7 + p.a.toNat * 11)

/-- R35: the slot's pixel, or nothing where the slot is empty. -/
def cacheLookup (i : Fin 64) (cache : Cache) : Option Pixel := cache[i]

/-- R36: `CacheInsert(p)`. -/
def cacheInsert (p : Pixel) (cache : Cache) : Cache := cache.set (cacheHash p) (some p)

/-- R37: the cache's canonical form: a populated slot holds a pixel that hashes to it. -/
abbrev Memory.wf (cache : Cache) : Prop :=
  ∀ i : Fin 64, (cacheLookup i cache).all (fun p => decide (cacheHash p = i)) = true

/-- R79: whether a commit of this class inserts into the cache. -/
def inserts (policy : CachePolicy) (cls : TagClass) : Bool :=
  match policy, cls with
  | .all, _ => true
  | .literalOnly, .literalRGB => true
  | .literalOnly, .literalRGBA => true
  | .literalOnly, _ => false

/-! ### Errors -/

/-- R100: `raise E(info)`. The pending primitive is abandoned and every other register keeps its value. -/
def State.raise (e : ErrCode) (s : State) : State := { s with errCode := e, phase := .error, micro := .idle }

/-- Leaving IDLE, DONE or ERROR by `start` (R111): every register of the block takes its reset value, `phase` becomes
AWAITING_HEADER and header byte 0 is read next. The new decode has its own source and its own, empty, output. -/
def State.begin (source : List Byte) (s : State) : State :=
  { State.reset with
    phase := .awaitingHeader, micro := .header 0, source := source,
    schedule := s.schedule, policy := s.policy }

/-- Leaving any phase by `rst` (R110): every register of the block takes its reset value. What the host holds stays. -/
def State.hardReset (s : State) : State :=
  { State.reset with source := s.source, sink := s.sink, schedule := s.schedule, policy := s.policy }

/-! ### Pixels -/

/-- R79: `Commit(p, cls)` once the host has accepted the pixel. -/
def State.commit (p : Pixel) (cls : TagClass) (s : State) : State :=
  { s with
    sink := s.sink ++ [p]
    pixelCount := s.pixelCount + 1
    cache := if inserts s.policy cls then cacheInsert p s.cache else s.cache
    prev := p }

/-- `n` commits of one pixel (R93). -/
def State.commits : Nat → Pixel → TagClass → State → State
  | 0, _, _, s => s
  | n + 1, p, cls, s => State.commits n p cls (s.commit p cls)

/-- A handler reaches its first `Emit` (R32, R79): the pixel is on the port, with `more` copies to follow it. -/
def State.offer (p : Pixel) (cls : TagClass) (more : Nat) (s : State) : State :=
  { s with micro := .emit ⟨p, cls, more⟩ }

/-! ### Refill -/

/-- The program point before `n` more bytes of the record are shifted in. -/
def afterPixels : Nat → Micro
  | 0 => .boundary
  | n + 1 => .refill n

/-- R80: `Refill(n)` against a source that answers at once, up to the next opcode boundary. -/
def refill : Nat → State → State
  | 0, s => { s with micro := .boundary }
  | n + 1, s =>
    match s.nextByte? with
    | none => s.raise .truncatedStream
    | some b => refill n (s.readShift b)

/-- The rest of the record in progress, against a host that accepts every pixel and answers every read at once:
the offered pixel and its copies are committed, then the operand bytes are refilled (R79, R80). -/
def State.finishRecord (s : State) : State :=
  match s.micro with
  | .emit e => refill e.cls.operandBytes (s.commits (e.more + 1) e.pixel e.cls)
  | .refill n => refill (n + 1) s
  | .idle => s
  | .header _ => s
  | .prime _ => s
  | .boundary => s

end Sys2Proof.Machine
end

