-- ==== Sys2Proof/Machine/Operands.lean ====
section
/-! DEFINITION. The pixel each record makes of its operands and the previous pixel (R87, R88, R90 to R93). -/

namespace Sys2Proof.Machine

/-- R10: `wrap8(x) = x mod 256`, Euclidean for negative `x`. -/
def wrap8 (x : Int) : Byte := BitVec.ofInt 8 x

/-- R90: a channel plus an exact delta, reduced once. -/
def addDelta (c : Byte) (d : Int) : Byte := wrap8 ((c.toNat : Int) + d)

/-- R87: alpha is inherited from the previous pixel. -/
def literalRGBPixel (r g b : Byte) (prev : Pixel) : Pixel := ⟨r, g, b, prev.a⟩

/-- R91. -/
def smallDeltaPixel (dr dg db : Int) (prev : Pixel) : Pixel :=
  ⟨addDelta prev.r dr, addDelta prev.g dg, addDelta prev.b db, prev.a⟩

/-- R92. -/
def lumaDeltaPixel (dg drdg dbdg : Int) (prev : Pixel) : Pixel :=
  ⟨addDelta prev.r (drdg + dg), addDelta prev.g dg, addDelta prev.b (dbdg + dg), prev.a⟩

end Sys2Proof.Machine
end

