-- ==== Sys2Proof/Machine/Delta.lean ====
section
/-! DEFINITION. The delta records (44_delta.md). -/

namespace Sys2Proof.Machine

/-- R91, up to the `Emit`. -/
def handleSmallDelta (dr dg db : Int) (s : State) : State := s.offer (smallDeltaPixel dr dg db s.prev) .smallDelta 0

/-- R91: `Commit(p, SmallDelta)`; no refill. -/
def execSmallDelta (dr dg db : Int) (s : State) : Host.Outcome State Fault Refusal :=
  .next (handleSmallDelta dr dg db s).finishRecord

/-- R92, up to the `Emit`. -/
def handleLumaDelta (dg drdg dbdg : Int) (s : State) : State :=
  s.offer (lumaDeltaPixel dg drdg dbdg s.prev) .lumaDelta 0

/-- R92: `Commit(p, LumaDelta)`, then `Refill(1)`. -/
def execLumaDelta (dg drdg dbdg : Int) (s : State) : Host.Outcome State Fault Refusal :=
  .next (handleLumaDelta dg drdg dbdg s).finishRecord

end Sys2Proof.Machine
end

