-- ==== Sys2Proof/Machine/Index.lean ====
section
/-! DEFINITION. The cached-index record (43_index.md). -/

namespace Sys2Proof.Machine

/-- R89, up to the `Emit` or the raise: an empty slot raises InvalidCacheReference (R35) and commits nothing. -/
def handleCachedIndex (idx : Fin 64) (s : State) : State :=
  match cacheLookup idx s.cache with
  | none => s.raise .invalidCacheReference
  | some p => s.offer p .cachedIndex 0

/-- R89: `CacheLookup(i)`, then `Commit(p, CachedIndex)`; no refill. -/
def execCachedIndex (idx : Fin 64) (s : State) : Host.Outcome State Fault Refusal :=
  .next (handleCachedIndex idx s).finishRecord

end Sys2Proof.Machine
end

