-- ==== Sys2Proof/Machine/Literal.lean ====
section
/-! DEFINITION. The literal records (42_literal.md). A handler runs from the end of its tag fetch (R77) to its `Emit`;
the meaning is the handler and the rest of its record. -/

namespace Sys2Proof.Machine

/-- R87, up to the `Emit`. -/
def handleLiteralRGB (r g b : Byte) (s : State) : State := s.offer (literalRGBPixel r g b s.prev) .literalRGB 0

/-- R87: `Commit(p, LiteralRGB)`, then `Refill(3)`. -/
def execLiteralRGB (r g b : Byte) (s : State) : Host.Outcome State Fault Refusal :=
  .next (handleLiteralRGB r g b s).finishRecord

/-- R88, up to the `Emit`. -/
def handleLiteralRGBA (r g b a : Byte) (s : State) : State := s.offer ⟨r, g, b, a⟩ .literalRGBA 0

/-- R88: `Commit(p, LiteralRGBA)`, then `Refill(4)`. -/
def execLiteralRGBA (r g b a : Byte) (s : State) : Host.Outcome State Fault Refusal :=
  .next (handleLiteralRGBA r g b a s).finishRecord

end Sys2Proof.Machine
end

