-- ==== Sys2Proof/Machine/Marker.lean ====
section
/-! DEFINITION. The end marker (41_engine.md R76, R81). -/

namespace Sys2Proof.Machine

/-- R76: `phase` <- DONE; no byte is read and no pixel is committed. -/
def handleEndMarker (s : State) : State := { s with phase := .done, micro := .idle }

/-- R76 and R81: the decode ends. -/
def execEndMarker (s : State) : Host.Outcome State Fault Refusal := .next (handleEndMarker s)

end Sys2Proof.Machine
end

