-- ==== Sys2Proof/Machine/Run.lean ====
section
/-! DEFINITION. The run-length record (45_run.md). -/

namespace Sys2Proof.Machine

/-- R93, up to the first `Emit`: the previous pixel, with the rest of its copies to follow. -/
def handleRun (count : Nat) (s : State) : State := s.offer s.prev .run (count - 1)

/-- R93: `count` commits of the previous pixel; no refill. -/
def execRun (count : Nat) (s : State) : Host.Outcome State Fault Refusal := .next (handleRun count s).finishRecord

end Sys2Proof.Machine
end

