-- ==== Sys2Proof/Machine/Dispatch.lean ====
section
/-! DEFINITION. R78: the class of the tag selects exactly one handler. `exec i s` runs the record `i` from the end of
its tag fetch (R77) to the next opcode boundary, against a host that serves both ports at once. -/

namespace Sys2Proof.Machine

def exec (i : Instr) (s : State) : Host.Outcome State Fault Refusal :=
  match i with
  | .literalRGBA r g b a => Sys2Proof.Machine.execLiteralRGBA r g b a s
  | .literalRGB r g b => Sys2Proof.Machine.execLiteralRGB r g b s
  | .cachedIndex idx => Sys2Proof.Machine.execCachedIndex idx s
  | .smallDelta dr dg db => Sys2Proof.Machine.execSmallDelta dr dg db s
  | .lumaDelta dg drdg dbdg => Sys2Proof.Machine.execLumaDelta dg drdg dbdg s
  | .run count => Sys2Proof.Machine.execRun count s
  | .endMarker => Sys2Proof.Machine.execEndMarker s

end Sys2Proof.Machine
end

