-- ==== Sys2Proof/Machine/Flags.lean ====
section
/-! DEFINITION. The views of the state: the status flags (R26; there are no condition codes), the header registers
(R24), the record pointer (R19), and the output ports (R28). None has state of its own. -/

namespace Sys2Proof.Machine

/-- R15: the encoding of `phase`. -/
def Phase.code : Phase → BitVec 3
  | .idle => 0
  | .awaitingHeader => 1
  | .streaming => 2
  | .done => 3
  | .error => 4

/-- R16: the encoding of `err_code`. -/
def ErrCode.code : ErrCode → BitVec 3
  | .none => 0
  | .malformedHeader => 1
  | .truncatedStream => 2
  | .invalidCacheReference => 3
  | .unknownOpcode => 4

/-- R26. -/
def State.done (s : State) : Bool := s.phase = .done

/-- R26. -/
def State.error (s : State) : Bool := s.phase = .error

/-- R26: a decode is in progress. -/
def State.busy (s : State) : Bool := s.phase = .awaitingHeader ∨ s.phase = .streaming

/-- R24. -/
def State.hdrMagic (s : State) : Word32 := s.header[0] ++ s.header[1] ++ s.header[2] ++ s.header[3]

/-- R24, R67: big-endian. -/
def State.hdrWidth (s : State) : Word32 := s.header[4] ++ s.header[5] ++ s.header[6] ++ s.header[7]

/-- R24, R67: big-endian. -/
def State.hdrHeight (s : State) : Word32 := s.header[8] ++ s.header[9] ++ s.header[10] ++ s.header[11]

/-- R24. -/
def State.hdrChannels (s : State) : Byte := s.header[12]

/-- R24. -/
def State.hdrColorspace (s : State) : Byte := s.header[13]

/-- R19: the source offset of the window's front. -/
def State.fp (s : State) : Nat := s.pos - 8

/-- R98: the offset of the tag whose lookup failed, recovered from `bytes_consumed`. -/
def State.failedIndexOffset (s : State) : Counter := s.bytesConsumed - 9

/-- R23: `cache_valid[i]`. -/
def State.cacheValid (s : State) (i : Fin 64) : Bool := (cacheLookup i s.cache).isSome

/-- R28 and R43: `{r, g, b, a}`, `r` in bits 31:24. -/
def packPixel (p : Pixel) : Word32 := p.r ++ p.g ++ p.b ++ p.a

/-- R28: the decoder is performing a `ReadByte()`. At an opcode boundary that is the tag's replenishing read (R77),
made only where the marker check has failed. -/
def State.inReady (s : State) : Bool :=
  s.busy &&
    match s.micro with
    | .header _ => true
    | .prime _ => true
    | .refill _ => true
    | .boundary => decide (s.window ≠ marker)
    | .emit _ => false
    | .idle => false

/-- R28 and R32: the pixel being emitted. -/
def State.offered (s : State) : Option Pixel :=
  match s.busy, s.micro with
  | true, .emit e => some e.pixel
  | _, _ => none

/-- The output ports of R28. `outPixel` is `none` where the spec gives the port no value: `out_valid` = 0 and
`rst` = 0. DESIGN CHOICE (safe, notes/assumptions/14.md). -/
structure Outputs where
  inReady : Bool
  outPixel : Option Word32
  outValid : Bool
  phase : BitVec 3
  errCode : BitVec 3
  done : Bool
  error : Bool
  busy : Bool
  hdrValid : Bool
  hdrMagic : Word32
  hdrWidth : Word32
  hdrHeight : Word32
  hdrChannels : Byte
  hdrColorspace : Byte
  pixelCount : Counter
  bytesConsumed : Counter
deriving DecidableEq, Repr

/-- R28: "All outputs are 0 while `rst` = 1, except `phase`, which shows IDLE (0)." -/
def Outputs.inReset : Outputs :=
  { inReady := false, outPixel := some 0, outValid := false, phase := 0, errCode := 0, done := false, error := false,
    busy := false, hdrValid := false, hdrMagic := 0, hdrWidth := 0, hdrHeight := 0, hdrChannels := 0,
    hdrColorspace := 0, pixelCount := 0, bytesConsumed := 0 }

/-- R28: what the ports show in state `s`, with `rst` at its value. -/
def State.outputs (rst : Bool) (s : State) : Outputs :=
  if rst then Outputs.inReset
  else
    { inReady := s.inReady
      outPixel := s.offered.map packPixel
      outValid := s.offered.isSome
      phase := s.phase.code
      errCode := s.errCode.code
      done := s.done
      error := s.error
      busy := s.busy
      hdrValid := s.hdrValid
      hdrMagic := s.hdrMagic
      hdrWidth := s.hdrWidth
      hdrHeight := s.hdrHeight
      hdrChannels := s.hdrChannels
      hdrColorspace := s.hdrColorspace
      pixelCount := s.pixelCount
      bytesConsumed := s.bytesConsumed }

end Sys2Proof.Machine
end

