-- ==== Sys2Proof/Machine/Header.lean ====
section
/-! DEFINITION. The header validator and the priming of the window (40_header.md). -/

namespace Sys2Proof.Machine

/-- R68. -/
def validChannels (b : Byte) : Bool := b = 3 ∨ b = 4

/-- R69. -/
def validColorspace (b : Byte) : Bool := b = 0 ∨ b = 1

/-- R66: header byte `k` has been read. The channels byte and the colour-space byte are each checked on arrival. -/
def headerByte (k : Nat) (b : Byte) (s : State) : State :=
  let t := { s.consume with header := s.header.setIfInBounds k b }
  if k = 12 then
    if validChannels b then { t with micro := .header 13 } else t.raise .malformedHeader
  else if k = 13 then
    if validColorspace b then { t with hdrValid := true, phase := .streaming, micro := .prime 0 }
    else t.raise .malformedHeader
  else { t with micro := .header (k + 1) }

/-- R66: up to `n` header bytes, from a source that answers at once. -/
def headerBytes : Nat → State → State
  | 0, s => s
  | n + 1, s =>
    match s.micro with
    | .header k =>
      match s.nextByte? with
      | none => s.raise .truncatedStream
      | some b => headerBytes n (headerByte k b s)
    | .idle => s
    | .prime _ => s
    | .boundary => s
    | .emit _ => s
    | .refill _ => s

/-- R74: priming byte `k` has been read and shifted in. -/
def primeByte (k : Nat) (b : Byte) (s : State) : State :=
  { s.readShift b with micro := if k = 7 then .boundary else .prime (k + 1) }

/-- R74: up to `n` priming bytes, from a source that answers at once. -/
def primeBytes : Nat → State → State
  | 0, s => s
  | n + 1, s =>
    match s.micro with
    | .prime k =>
      match s.nextByte? with
      | none => s.raise .truncatedStream
      | some b => primeBytes n (primeByte k b s)
    | .idle => s
    | .header _ => s
    | .boundary => s
    | .emit _ => s
    | .refill _ => s

end Sys2Proof.Machine
end

