-- ==== Sys2Proof/Machine/Engine.lean ====
section
/-! DEFINITION. One whole operation of the decoder against a host that serves both ports at once (R86, R114): the rest
of the header phase, the rest of the priming, the rest of a record, or, from an opcode boundary, the marker check and
one record (R75). -/

namespace Sys2Proof.Machine

/-- R75, from an opcode boundary: the marker check (R76), else the tag fetch (R77) and the record. -/
def streamStep (s : State) : Host.Outcome State Fault Refusal :=
  if s.window = marker then exec .endMarker s
  else
    match s.nextByte? with
    | none => .next (s.raise .truncatedStream)
    | some b => exec (decodeWindow s.window) (s.readShift b)

/-- The operation at the program point. Where no decode is in progress nothing happens (R101, R109). -/
def operate (s : State) : Host.Outcome State Fault Refusal :=
  if s.busy then
    match s.micro with
    | .idle => .next s
    | .header k => .next (headerBytes (14 - k) s)
    | .prime k => .next (primeBytes (8 - k) s)
    | .boundary => streamStep s
    | .emit _ => .next s.finishRecord
    | .refill _ => .next s.finishRecord
  else .next s

/-- The header of the stream a loaded word stands in: magic, width and height 0 (any value passes, R70, R71),
channels 3, colour space 0 (R68, R69). -/
def loadedHeader : HeaderBuffer := #v[0, 0, 0, 0, 0, 0, 0, 0, 0, 0, 0, 0, 3, 0]

/-- The host's load of an instruction word, from outside the machine: the decode of a stream whose header has passed
and whose window is primed with the word's bytes (R74), at the opcode boundary, with the bytes its reads need
after it in the source (five at most: one tag fetch and four refills, R77 and R80). The registers a record works on
(`prev`, the cache, the count of pixels) stay as they are. -/
def State.loadWord (s : State) (nbits w : Nat) : State :=
  { s with
    phase := .streaming
    errCode := .none
    header := loadedHeader
    hdrValid := true
    micro := .boundary
    window := tableWindow nbits w
    source := loadedHeader.toList ++ (tableWindow nbits w).toList ++ List.replicate 5 0x00
    pos := 22
    bytesConsumed := 22
    schedule := [] }

end Sys2Proof.Machine
end

