-- ==== Sys2Proof/Machine/Ports.lean ====
section
/-! DEFINITION. One rising edge of `clk` (R28): at most one byte or one pixel transfers, and the decoder goes on to its
next port primitive. Waiting, back-pressure, `start` and `rst` are all here. -/

namespace Sys2Proof.Machine

/-- R78: the handler of a record up to its first port primitive, or to its raise. -/
def handle (i : Instr) (s : State) : State :=
  match i with
  | .literalRGBA r g b a => handleLiteralRGBA r g b a s
  | .literalRGB r g b => handleLiteralRGB r g b s
  | .cachedIndex idx => handleCachedIndex idx s
  | .smallDelta dr dg db => handleSmallDelta dr dg db s
  | .lumaDelta dg drdg dbdg => handleLumaDelta dg drdg dbdg s
  | .run count => handleRun count s
  | .endMarker => handleEndMarker s

/-- R77: the tag's replenishing byte `b` has been read; the record at the old front is dispatched. -/
def tagByte (b : Byte) (s : State) : State := handle (decodeWindow s.window) (s.readShift b)

/-- R80: one refill byte, with `n` more to come. -/
def refillByte (n : Nat) (b : Byte) (s : State) : State := { s.readShift b with micro := afterPixels n }

/-- R32 and R79: the offered pixel is accepted. -/
def acceptPixel (e : Emission) (s : State) : State :=
  match e.more with
  | 0 => { s.commit e.pixel e.cls with micro := afterPixels e.cls.operandBytes }
  | n + 1 => { s.commit e.pixel e.cls with micro := .emit { e with more := n } }

/-- R31: one edge of a `ReadByte()` whose byte goes to `k`: a byte offered transfers, whatever `in_eof` is; with no
byte and `in_eof` the source is exhausted; otherwise the decoder waits. A host past the end of its source has no byte
to offer (R113 (a)). -/
def readEdge (e : Edge) (k : Byte → State → State) (s : State) : State :=
  match e.inValid, s.nextByte? with
  | true, some b => k b s
  | true, none => if e.inEof then s.raise .truncatedStream else s
  | false, _ => if e.inEof then s.raise .truncatedStream else s

/-- One edge of a decode in progress: the primitive at the program point (R27). -/
def portEdge (e : Edge) (s : State) : State :=
  match s.micro with
  | .idle => s
  | .header k => readEdge e (headerByte k) s
  | .prime k => readEdge e (primeByte k) s
  | .boundary => if s.window = marker then handleEndMarker s else readEdge e tagByte s
  | .emit em => if e.outReady then acceptPixel em s else s
  | .refill n => readEdge e (refillByte n) s

/-- One rising edge of `clk`: `rst` first, in every phase (R104, R110); `start` only where no decode is in progress
(R111); otherwise the ports. -/
def clockEdge (e : Edge) (s : State) : State :=
  if e.rst then s.hardReset
  else if s.busy then portEdge e s
  else
    match e.start with
    | some source => s.begin source
    | none => s

/-- The edges of a schedule, one after another. -/
def clockEdges : List Edge → State → State
  | [], s => s
  | e :: es, s => clockEdges es (clockEdge e s)

end Sys2Proof.Machine
end

