-- ==== Sys2Proof/Machine/Step.lean ====
section
/-! DEFINITION. The step function. -/

namespace Sys2Proof.Machine

/-- One step: the next clock edge of the host's schedule (R28), or, where the schedule has none left, one whole
operation against a host that serves at once (R86). R114: what a decode answers does not depend on which. -/
def step (s : State) : Host.Outcome State Fault Refusal :=
  match s.schedule with
  | e :: es => .next (clockEdge e { s with schedule := es })
  | [] => operate s

/-- `s` with the word loaded where `step` takes its next instruction (notes/assumptions/9.md). -/
def State.withFetchWord (s : State) (nbits w : Nat) : State := s.loadWord nbits w

end Sys2Proof.Machine
end

