-- ==== Sys2Proof/Machine/Ring.lean ====
section
/-! DEFINITION. R40: the admitted implementation of the window as a ring buffer of eight slots with a head pointer.
The machine does not use it; it is here so that the claim of R40 can be stated about the model's window. -/

namespace Sys2Proof.Machine

/-- Eight slots and the position of the oldest byte. -/
structure RingWindow where
  slots : Vector Byte 8
  head : Fin 8
deriving DecidableEq, Repr

/-- The byte at logical position `k`: `k` places after the head, wrapping round. -/
def RingWindow.at (w : RingWindow) (k : Fin 8) : Byte := w.slots[w.head + k]

/-- The logical window the ring shows. -/
def RingWindow.view (w : RingWindow) : Window := Vector.ofFn w.at

/-- Overwrite the oldest byte and move the head past it. -/
def RingWindow.push (b : Byte) (w : RingWindow) : RingWindow := ⟨w.slots.set w.head b, w.head + 1⟩

end Sys2Proof.Machine
end

