-- ==== Sys2Proof/Safety.lean ====
section
/-! DEFINITION. What counts as a good state, a finished decode and a dutiful host, in the terms the claims use. -/

namespace Sys2Proof.Machine

/-- The next state, where a step answers one. -/
def nextState? (o : Host.Outcome State Fault Refusal) : Option State :=
  match o with
  | .next s => some s
  | .fault _ => none
  | .refused _ => none

/-- No decode is in progress: IDLE, DONE or ERROR (R109). -/
abbrev State.quiescent (s : State) : Prop := s.busy = false

/-- R81 and R102: a decode yields an image, its header and its pixels, exactly when it ends in DONE. The pixels of a
decode in ERROR are void. -/
def State.image? (s : State) : Option (HeaderBuffer × List Pixel) :=
  if s.phase = .done then some (s.header, s.sink) else none

/-- R79: the records whose commit inserts under either policy. -/
def isLiteral (i : Instr) : Bool :=
  match i with
  | .literalRGBA _ _ _ _ => true
  | .literalRGB _ _ _ => true
  | .cachedIndex _ => false
  | .smallDelta _ _ _ => false
  | .lumaDelta _ _ _ => false
  | .run _ => false
  | .endMarker => false

/-- Whether the instruction commits a pixel in this state: every record does but a CachedIndex of an empty slot (R89),
and the end marker is no record (R76). -/
def commitsPixel (i : Instr) (s : State) : Bool :=
  match i with
  | .literalRGBA _ _ _ _ => true
  | .literalRGB _ _ _ => true
  | .cachedIndex idx => (cacheLookup idx s.cache).isSome
  | .smallDelta _ _ _ => true
  | .lumaDelta _ _ _ => true
  | .run _ => true
  | .endMarker => false

/-- R27: the program point belongs to the phase, and its counts are within their operation. -/
def State.pointFits (s : State) : Bool :=
  match s.phase, s.micro with
  | .awaitingHeader, .header k => decide (k < 14 ∧ s.pos = k)
  | .streaming, .prime k => decide (k < 8 ∧ s.pos = 14 + k)
  | .streaming, .boundary => decide (22 ≤ s.pos)
  | .streaming, .emit e => decide (22 ≤ s.pos ∧ e.more < 62 ∧ (e.more ≠ 0 → e.cls = .run))
  | .streaming, .refill n => decide (22 ≤ s.pos ∧ n < 4)
  | .idle, .idle => true
  | .done, .idle => true
  | .error, .idle => true
  | _, _ => false

/-- The invariant of the machine: what every state that follows a good state keeps. -/
structure State.Inv (s : State) : Prop where
  /-- R37 -/
  cache : Memory.wf s.cache
  /-- R18: `bytes_consumed` is `pos`, modulo 2^64 -/
  counted : s.bytesConsumed = BitVec.ofNat 64 s.pos
  /-- R31: no byte beyond the source has been read -/
  within : s.pos ≤ s.source.length
  /-- R16: `err_code` is nonzero exactly when `phase` = ERROR -/
  errors : s.errCode ≠ .none ↔ s.phase = .error
  /-- R27 -/
  point : s.pointFits = true
  /-- R25: `hdr_valid` through STREAMING and DONE, and not before -/
  headerFlag : (s.phase = .streaming ∨ s.phase = .done → s.hdrValid = true) ∧
    (s.phase = .idle ∨ s.phase = .awaitingHeader → s.hdrValid = false)
  /-- R68, R69: a valid header has legal enumeration bytes -/
  headerValid : s.hdrValid = true → validChannels s.header[12] = true ∧ validColorspace s.header[13] = true
  /-- R66, R68: the colour-space byte is read only after a legal channels byte -/
  channelsFirst : s.micro = .header 13 → validChannels s.header[12] = true
  /-- R24: the header registers hold the header bytes as read -/
  headerRead : ∀ k : Fin 14, k.val < s.pos → s.source[k.val]? = some s.header[k]
  /-- R39: `W[k] = S[pos - 8 + k]`, for every position that holds a byte of the pixel stream -/
  windowRead : ∀ k : Fin 8, 22 ≤ s.pos + k.val → s.source[s.pos + k.val - 8]? = some s.window[k]
  /-- R81: in DONE the window holds the marker, fully read -/
  doneAtMarker : s.phase = .done → s.window = marker ∧ 22 ≤ s.pos
  /-- R20, R81: `pixel_count` is the length of `O`, modulo 2^64 -/
  pixels : s.phase ≠ .idle → s.pixelCount = BitVec.ofNat 64 s.sink.length
  /-- R21: `prev` is the last pixel of `O`, or DEFAULT -/
  previous : s.phase ≠ .idle → s.prev = s.sink.getLast?.getD Pixel.opaqueBlack

/-- R113: the duties of the host at one edge, from the state at that edge, with no `rst` and no new decode: `in_eof`
only where no byte remains. -/
def Edge.dutiful (e : Edge) (s : State) : Prop :=
  e.rst = false ∧ (s.busy = false → e.start = none) ∧ (e.inEof = true → s.source.length ≤ s.pos)

/-- R113: every edge of a schedule is dutiful at the state it meets. -/
def dutifulEdges : List Edge → State → Prop
  | [], _ => True
  | e :: es, s => e.dutiful s ∧ dutifulEdges es (clockEdge e s)

/-- The edge of a host that serves both ports at once: the next byte where there is one, else `in_eof`. -/
def promptEdge (s : State) : Edge :=
  { rst := false, start := none, inValid := true, inEof := decide (s.source.length ≤ s.pos), outReady := true }

/-- One primitive of R13, served at once: what a prompt host's edge does to a decode in progress. -/
def serve (s : State) : State := portEdge (promptEdge s) s

/-- `k` steps lead from `s` to `t`. -/
def stepsTo : Nat → State → State → Prop
  | 0, s, t => s = t
  | k + 1, s, t => ∃ u, step s = .next u ∧ stepsTo k u t

/-- An opcode boundary of a decode, with no clock edge scheduled: the host serves at once (R75, R86). -/
structure State.AtBoundary (s : State) : Prop where
  phase : s.phase = .streaming
  micro : s.micro = .boundary
  schedule : s.schedule = []

end Sys2Proof.Machine
end

