-- ==== Sys2Proof/Certificates/Slice0/Obligations.lean ====
section
/-! DEFINITION. The statements for the provers. Pixels, windows and counters are written out here, not through the
model's own operations, wherever a rule gives their value. -/

open Sys2Proof Sys2Proof.Machine

/-! ### Encoding (30_encoding.md) -/

/-- R57, R59, R64: no bit of an encoding is lost. A sequence that begins with the marker's bytes is the end marker
whatever was meant (R83). -/
def Obligations.DecodeEncodeRoundTrip : Prop :=
  ∀ (i : Instr) (rest : List Byte), i.wellFormed = true →
    (i = .endMarker ∨ (encode i ++ rest).take 8 ≠ marker.toList) →
    decode (encode i ++ rest) = .ok (i, rest)

/-- R57, R62: every window decodes to a well-formed instruction, and is that instruction's bytes and the bytes after. -/
def Obligations.EncodeOfDecodedWindow : Prop :=
  ∀ w : Window, (decodeWindow w).wellFormed = true ∧ encode (decodeWindow w) <+: w.toList

/-- R60, the table of tag ranges. -/
def Obligations.EveryTagHasOneClass : Prop :=
  ∀ t : Byte,
    (classify t = .cachedIndex ↔ t.toNat ≤ 0x3F) ∧
    (classify t = .smallDelta ↔ 0x40 ≤ t.toNat ∧ t.toNat ≤ 0x7F) ∧
    (classify t = .lumaDelta ↔ 0x80 ≤ t.toNat ∧ t.toNat ≤ 0xBF) ∧
    (classify t = .run ↔ 0xC0 ≤ t.toNat ∧ t.toNat ≤ 0xFD) ∧
    (classify t = .literalRGB ↔ t = 0xFE) ∧
    (classify t = .literalRGBA ↔ t = 0xFF)

/-- R61: the exact matches come before the two-bit test, and the parallel form of the Run test agrees. -/
def Obligations.ParallelRunClassifier : Prop :=
  ∀ t : Byte,
    (classify t = .run ↔ (t.extractLsb 7 6 = 0b11 ∧ ¬ t.extractLsb 7 1 = 0b1111111)) ∧
    (t = 0xFE → classify t = .literalRGB) ∧ (t = 0xFF → classify t = .literalRGBA)

/-- R58: the record's length is a function of its tag. -/
def Obligations.RecordLengthFollowsTag : Prop :=
  ∀ (t : Byte) (rest rem : List Byte) (i : Instr), decode (t :: rest) = .ok (i, rem) → i ≠ .endMarker →
    rem = (t :: rest).drop
      (match classify t with
        | .literalRGB => 4
        | .literalRGBA => 5
        | .cachedIndex => 1
        | .smallDelta => 1
        | .lumaDelta => 2
        | .run => 1)

/-- R57: one word of each row, written out from its format. That a word counts its bits from the first byte, so that the
end marker is 2^56 and not the 1 of its row's match, is the model's reading of the table (DEDUCED,
notes/assumptions/11.md). -/
def Obligations.TableWordsDecode : Prop :=
  decodeTableWord 40 0x281E140AFF = some (.literalRGBA 10 20 30 40) ∧
  decodeTableWord 32 0x050505FE = some (.literalRGB 5 5 5) ∧
  decodeTableWord 8 0b00001100 = some (.cachedIndex 12) ∧
  decodeTableWord 8 0b01110010 = some (.smallDelta 1 (-2) 0) ∧
  decodeTableWord 16 0b0011110010100101 = some (.lumaDelta 5 (-5) 4) ∧
  decodeTableWord 8 0b11000100 = some (.run 5) ∧
  decodeTableWord 64 0x0100000000000000 = some .endMarker

/-- R64: the assembler spells exactly the well-formed instructions. -/
def Obligations.AssemblerRefusesOutOfRange : Prop :=
  ∀ i : Instr, (assemble [.instr i] = none ↔ i.wellFormed = false) ∧
    (∀ bs, assemble [.instr i] = some bs → bs.length = i.length)

/-! ### The pixel cache and the window (20_memory.md) -/

/-- R33. -/
def Obligations.HashIsWeightedSum : Prop :=
  ∀ r g b a : Byte,
    (cacheHash ⟨r, g, b, a⟩).val = (r.toNat * 3 + g.toNat * 5 + b.toNat * 7 + a.toNat * 11) % 64

/-- R34, the spec's own inference from R33: the slot is the same with each product and the sum truncated to any width of six bits or more; and on a
datapath of six bits throughout. -/
def Obligations.HashAtAnyWidth : Prop :=
  (∀ (wr wg wb wa w : Nat) (p : Pixel), 6 ≤ wr → 6 ≤ wg → 6 ≤ wb → 6 ≤ wa → 6 ≤ w →
    (BitVec.ofNat w ((BitVec.ofNat wr (p.r.toNat * 3)).toNat + (BitVec.ofNat wg (p.g.toNat * 5)).toNat
      + (BitVec.ofNat wb (p.b.toNat * 7)).toNat + (BitVec.ofNat wa (p.a.toNat * 11)).toNat)).toNat % 64
      = (cacheHash p).val) ∧
  (∀ p : Pixel,
    (p.r.extractLsb' 0 6 * 3 + p.g.extractLsb' 0 6 * 5 + p.b.extractLsb' 0 6 * 7 + p.a.extractLsb' 0 6 * 11).toNat
      = (cacheHash p).val)

/-- R35, R36: an insert is seen by a lookup of its slot, and by no other. -/
def Obligations.LookupAfterInsert : Prop :=
  ∀ (p : Pixel) (cache : Cache) (i : Fin 64),
    cacheLookup i (cacheInsert p cache) = if i = cacheHash p then some p else cacheLookup i cache

/-- R37, the spec's own inference from R36: the cache's invariant holds after reset, every step keeps it, and inserting a looked-up pixel changes nothing. -/
def Obligations.CacheInvariantKept : Prop :=
  (∀ (i : Fin 64) (p : Pixel), cacheLookup i State.reset.cache = some p → cacheHash p = i) ∧
  (∀ s t : State, (∀ i p, cacheLookup i s.cache = some p → cacheHash p = i) → step s = .next t →
    ∀ i p, cacheLookup i t.cache = some p → cacheHash p = i) ∧
  (∀ (cache : Cache) (i : Fin 64) (p : Pixel), Memory.wf cache → cacheLookup i cache = some p →
    cacheInsert p cache = cache)

/-- R36, R52: a populated slot stays populated, but for `rst` and for a `start` that is taken. -/
def Obligations.PopulatedSlotStays : Prop :=
  ∀ (s t : State) (i : Fin 64), step s = .next t → s.cacheValid i = true →
    (∀ e ∈ s.schedule.head?, e.rst = false ∧ (s.busy = true ∨ e.start = none)) →
    t.cacheValid i = true

/-- R38: each byte moves one place towards the front. -/
def Obligations.ShiftMovesTowardsFront : Prop :=
  ∀ (b : Byte) (w : Window), (shift b w)[7] = b ∧ ∀ k : Fin 7, (shift b w)[k.val] = w[k.val + 1]

/-- R40: a ring buffer with a head pointer shows the same logical window after every byte. -/
def Obligations.RingBufferShowsWindow : Prop :=
  ∀ (b : Byte) (ring : RingWindow), (ring.push b).view = shift b ring.view

/-! ### The header and the priming (40_header.md) -/

/-- R66, R67, R70 to R72: a header whose enumeration bytes are legal is accepted, whatever its magic, width and height. -/
def Obligations.HeaderAccepted : Prop :=
  ∀ (s : State) (rest : List Byte) (m0 m1 m2 m3 : Byte) (width height : Word32) (channels colorspace : Byte),
    s.phase = .awaitingHeader → s.micro = .header 0 → s.pos = 0 → s.schedule = [] →
    s.source = encodeHeader m0 m1 m2 m3 width height channels colorspace ++ rest →
    (channels = 3 ∨ channels = 4) → (colorspace = 0 ∨ colorspace = 1) →
    ∃ t, step s = .next t ∧
      t.hdrMagic = m0 ++ m1 ++ m2 ++ m3 ∧ t.hdrWidth = width ∧ t.hdrHeight = height ∧
      t.hdrChannels = channels ∧ t.hdrColorspace = colorspace ∧
      t = { s with
        header := t.header, hdrValid := true, phase := .streaming, micro := .prime 0
        bytesConsumed := s.bytesConsumed + 14, pos := 14 }

/-- R68, R96: a bad channels byte ends the decode after 13 bytes; the colour-space byte is not read. -/
def Obligations.BadChannelsByte : Prop :=
  ∀ (s : State) (h : Vector Byte 12) (channels : Byte) (rest : List Byte),
    s.phase = .awaitingHeader → s.micro = .header 0 → s.pos = 0 → s.schedule = [] →
    s.source = h.toList ++ channels :: rest → channels ≠ 3 → channels ≠ 4 →
    ∃ t, step s = .next t ∧ (∀ k : Fin 12, t.header[k.val] = h[k]) ∧ t.header[12] = channels ∧
      t.header[13] = s.header[13] ∧
      t = { s with
        header := t.header, phase := .error, errCode := .malformedHeader, micro := .idle
        bytesConsumed := s.bytesConsumed + 13, pos := 13 }

/-- R69, R96: a bad colour-space byte ends the decode after 14 bytes. -/
def Obligations.BadColorspaceByte : Prop :=
  ∀ (s : State) (h : Vector Byte 12) (channels colorspace : Byte) (rest : List Byte),
    s.phase = .awaitingHeader → s.micro = .header 0 → s.pos = 0 → s.schedule = [] →
    s.source = h.toList ++ channels :: colorspace :: rest → (channels = 3 ∨ channels = 4) →
    colorspace ≠ 0 → colorspace ≠ 1 →
    ∃ t, step s = .next t ∧ (∀ k : Fin 12, t.header[k.val] = h[k]) ∧ t.header[12] = channels ∧
      t.header[13] = colorspace ∧
      t = { s with
        header := t.header, phase := .error, errCode := .malformedHeader, micro := .idle
        bytesConsumed := s.bytesConsumed + 14, pos := 14 }

/-- R73: a source that ends inside the header is a TruncatedStream, unless a bad channels byte came first. -/
def Obligations.TruncatedHeader : Prop :=
  ∀ s : State,
    s.phase = .awaitingHeader → s.micro = .header 0 → s.pos = 0 → s.schedule = [] → s.source.length < 14 →
    (∀ b, s.source[12]? = some b → b = 3 ∨ b = 4) →
    ∃ t, step s = .next t ∧
      (∀ k : Fin 14, t.header[k] = if h : k.val < s.source.length then s.source[k.val] else s.header[k]) ∧
      t = { s with
        header := t.header, phase := .error, errCode := .truncatedStream, micro := .idle
        bytesConsumed := s.bytesConsumed + BitVec.ofNat 64 s.source.length, pos := s.source.length }

/-- R74: priming reads eight bytes, the first of them to the front. -/
def Obligations.PrimingReadsEight : Prop :=
  ∀ (s : State) (w : Window),
    s.phase = .streaming → s.micro = .prime 0 → s.schedule = [] → w.toList <+: s.source.drop s.pos →
    step s = .next { s with
      window := w, bytesConsumed := s.bytesConsumed + 8, pos := s.pos + 8, micro := .boundary }

/-- R74: fewer than eight bytes after the header are a TruncatedStream; those there are have been read. -/
def Obligations.TruncatedPriming : Prop :=
  ∀ (s : State) (bs : List Byte),
    s.phase = .streaming → s.micro = .prime 0 → s.schedule = [] → s.source.drop s.pos = bs → bs.length < 8 →
    step s = .next { s with
      window := bs.foldl (fun w x => shift x w) s.window
      bytesConsumed := s.bytesConsumed + BitVec.ofNat 64 bs.length
      pos := s.pos + bs.length
      phase := .error, errCode := .truncatedStream, micro := .idle }

/-! ### The decode engine (41_engine.md) -/

/-- R75, R77, R78: at an opcode boundary, the step is the marker check, or the tag fetch and the record the window
holds: its tag `W[0]`, its operands from the bytes after it. -/
def Obligations.StepRunsDecodedRecord : Prop :=
  ∀ s : State, s.AtBoundary →
    (s.window = marker → step s = exec .endMarker s) ∧
    (∀ b, s.window ≠ marker → s.source[s.pos]? = some b →
      step s = exec (decodeRecord s.window[0] s.window[1] s.window[2] s.window[3] s.window[4])
        { s with
          window := #v[s.window[1], s.window[2], s.window[3], s.window[4], s.window[5], s.window[6], s.window[7], b]
          bytesConsumed := s.bytesConsumed + 1
          pos := s.pos + 1 })

/-- A word loaded by `withFetchWord` is the record the very next step runs (the model's load, notes/assumptions/9.md, of
a word read as notes/assumptions/11.md says). -/
def Obligations.LoadedWordRunsNext : Prop :=
  ∀ (s : State) (nbits w : Nat) (i : Instr), decodeTableWord nbits w = some i →
    step (s.withFetchWord nbits w) =
      exec i (if i = .endMarker then s.withFetchWord nbits w else (s.withFetchWord nbits w).readShift 0)

/-- R76: DONE is entered from an opcode boundary whose window is the marker, without a read or a pixel, and from
nowhere else. The first such boundary is the one after the priming. -/
def Obligations.MarkerEndsDecode : Prop :=
  (∀ s : State, exec .endMarker s = .next { s with phase := .done, micro := .idle }) ∧
  (∀ s : State, s.AtBoundary → s.window = marker → step s = .next { s with phase := .done, micro := .idle }) ∧
  (∀ s t : State, s.pointFits = true → step s = .next t → t.phase = .done → s.phase ≠ .done →
    s.phase = .streaming ∧ s.micro = .boundary ∧ s.window = marker) ∧
  (∀ s : State, s.phase = .streaming → s.micro = .prime 0 → s.schedule = [] →
    marker.toList <+: s.source.drop s.pos →
    ∃ t, stepsTo 2 s t ∧ t.phase = .done ∧ t.sink = s.sink ∧ t.pos = s.pos + 8)

/-- R77, R103: with the source exhausted the tag fetch raises TruncatedStream, before any handler runs, and so before
the lookup of an empty slot. -/
def Obligations.TruncatedTagFetch : Prop :=
  ∀ s : State, s.AtBoundary → s.window ≠ marker → s.source.length ≤ s.pos →
    step s = .next { s with phase := .error, errCode := .truncatedStream, micro := .idle }

/-- R58 and R85; R19 is the spec's own inference: a record that ends at the next boundary moves the read position by its length, and nothing else moves it. -/
def Obligations.RecordAdvancesByLength : Prop :=
  ∀ s t : State, s.AtBoundary → step s = .next t → t.phase = .streaming →
    t.micro = .boundary ∧ t.pos = s.pos + (decodeWindow s.window).length ∧
    t.bytesConsumed = s.bytesConsumed + BitVec.ofNat 64 (decodeWindow s.window).length

/-! ### The records (42_literal.md to 45_run.md) -/

/-- R87: the tag 0xFE; the commit and the refill; and TruncatedStream from the refill, after the commit. Alpha is the
previous pixel's. -/
def Obligations.LiteralRGBRecord : Prop :=
  (∀ b1 b2 b3 b4 : Byte, decodeRecord 0xFE b1 b2 b3 b4 = .literalRGB b1 b2 b3) ∧
  (∀ (r g b : Byte) (s : State) (x1 x2 x3 : Byte), [x1, x2, x3] <+: s.source.drop s.pos →
    exec (.literalRGB r g b) s = .next { s with
      sink := s.sink ++ [⟨r, g, b, s.prev.a⟩]
      pixelCount := s.pixelCount + 1
      cache := cacheInsert ⟨r, g, b, s.prev.a⟩ s.cache
      prev := ⟨r, g, b, s.prev.a⟩
      window := #v[s.window[3], s.window[4], s.window[5], s.window[6], s.window[7], x1, x2, x3]
      bytesConsumed := s.bytesConsumed + 3
      pos := s.pos + 3
      micro := .boundary }) ∧
  (∀ (r g b : Byte) (s : State) (bs : List Byte), s.source.drop s.pos = bs → bs.length < 3 →
    exec (.literalRGB r g b) s = .next { s with
      sink := s.sink ++ [⟨r, g, b, s.prev.a⟩]
      pixelCount := s.pixelCount + 1
      cache := cacheInsert ⟨r, g, b, s.prev.a⟩ s.cache
      prev := ⟨r, g, b, s.prev.a⟩
      window := bs.foldl (fun w x => shift x w) s.window
      bytesConsumed := s.bytesConsumed + BitVec.ofNat 64 bs.length
      pos := s.pos + bs.length
      phase := .error, errCode := .truncatedStream, micro := .idle })

/-- R88: the tag 0xFF; the commit and the refill; and TruncatedStream from the refill, after the commit. -/
def Obligations.LiteralRGBARecord : Prop :=
  (∀ b1 b2 b3 b4 : Byte, decodeRecord 0xFF b1 b2 b3 b4 = .literalRGBA b1 b2 b3 b4) ∧
  (∀ (r g b a : Byte) (s : State) (x1 x2 x3 x4 : Byte), [x1, x2, x3, x4] <+: s.source.drop s.pos →
    exec (.literalRGBA r g b a) s = .next { s with
      sink := s.sink ++ [⟨r, g, b, a⟩]
      pixelCount := s.pixelCount + 1
      cache := cacheInsert ⟨r, g, b, a⟩ s.cache
      prev := ⟨r, g, b, a⟩
      window := #v[s.window[4], s.window[5], s.window[6], s.window[7], x1, x2, x3, x4]
      bytesConsumed := s.bytesConsumed + 4
      pos := s.pos + 4
      micro := .boundary }) ∧
  (∀ (r g b a : Byte) (s : State) (bs : List Byte), s.source.drop s.pos = bs → bs.length < 4 →
    exec (.literalRGBA r g b a) s = .next { s with
      sink := s.sink ++ [⟨r, g, b, a⟩]
      pixelCount := s.pixelCount + 1
      cache := cacheInsert ⟨r, g, b, a⟩ s.cache
      prev := ⟨r, g, b, a⟩
      window := bs.foldl (fun w x => shift x w) s.window
      bytesConsumed := s.bytesConsumed + BitVec.ofNat 64 bs.length
      pos := s.pos + bs.length
      phase := .error, errCode := .truncatedStream, micro := .idle })

/-- R89, R35: the tags 0x00..0x3F; a populated slot's pixel is committed, which under ALL leaves a cache in its
canonical form as it is; an empty slot raises InvalidCacheReference and commits nothing. -/
def Obligations.CachedIndexRecord : Prop :=
  (∀ t b1 b2 b3 b4 : Byte, t.toNat ≤ 0x3F → ∃ idx : Fin 64, idx.val = t.toNat % 64 ∧
    decodeRecord t b1 b2 b3 b4 = .cachedIndex idx) ∧
  (∀ (idx : Fin 64) (s : State) (p : Pixel), cacheLookup idx s.cache = some p →
    exec (.cachedIndex idx) s = .next { s with
      sink := s.sink ++ [p]
      pixelCount := s.pixelCount + 1
      cache := if s.policy = .all then cacheInsert p s.cache else s.cache
      prev := p
      micro := .boundary } ∧
    (Memory.wf s.cache → cacheInsert p s.cache = s.cache)) ∧
  (∀ (idx : Fin 64) (s : State), cacheLookup idx s.cache = none →
    exec (.cachedIndex idx) s = .next { s with
      phase := .error, errCode := .invalidCacheReference, micro := .idle })

/-- R91: the tags 0x40..0x7F, with each field less its bias of 2; the pixel, reduced modulo 256 in each channel, alpha
unchanged; no byte is read, so no error is raised. -/
def Obligations.SmallDeltaRecord : Prop :=
  (∀ t b1 b2 b3 b4 : Byte, 0x40 ≤ t.toNat → t.toNat ≤ 0x7F →
    decodeRecord t b1 b2 b3 b4 =
      .smallDelta ((t.toNat / 16 % 4 : Nat) - 2 : Int) ((t.toNat / 4 % 4 : Nat) - 2 : Int) ((t.toNat % 4 : Nat) - 2 : Int)) ∧
  (∀ (dr dg db : Int) (s : State), ∃ p : Pixel,
    (p.r.toNat : Int) = ((s.prev.r.toNat : Int) + dr) % 256 ∧
    (p.g.toNat : Int) = ((s.prev.g.toNat : Int) + dg) % 256 ∧
    (p.b.toNat : Int) = ((s.prev.b.toNat : Int) + db) % 256 ∧ p.a = s.prev.a ∧
    exec (.smallDelta dr dg db) s = .next { s with
      sink := s.sink ++ [p]
      pixelCount := s.pixelCount + 1
      cache := if s.policy = .all then cacheInsert p s.cache else s.cache
      prev := p
      micro := .boundary })

/-- R92: the tags 0x80..0xBF and the operand byte; the pixel; the commit and the refill; and TruncatedStream from the
refill, after the commit. -/
def Obligations.LumaDeltaRecord : Prop :=
  (∀ t b1 b2 b3 b4 : Byte, 0x80 ≤ t.toNat → t.toNat ≤ 0xBF →
    decodeRecord t b1 b2 b3 b4 =
      .lumaDelta ((t.toNat % 64 : Nat) - 32 : Int) ((b1.toNat / 16 : Nat) - 8 : Int) ((b1.toNat % 16 : Nat) - 8 : Int)) ∧
  (∀ (dg drdg dbdg : Int) (s : State), ∃ p : Pixel,
    (p.r.toNat : Int) = ((s.prev.r.toNat : Int) + drdg + dg) % 256 ∧
    (p.g.toNat : Int) = ((s.prev.g.toNat : Int) + dg) % 256 ∧
    (p.b.toNat : Int) = ((s.prev.b.toNat : Int) + dbdg + dg) % 256 ∧ p.a = s.prev.a ∧
    (∀ x, s.source[s.pos]? = some x →
      exec (.lumaDelta dg drdg dbdg) s = .next { s with
        sink := s.sink ++ [p]
        pixelCount := s.pixelCount + 1
        cache := if s.policy = .all then cacheInsert p s.cache else s.cache
        prev := p
        window := #v[s.window[1], s.window[2], s.window[3], s.window[4], s.window[5], s.window[6], s.window[7], x]
        bytesConsumed := s.bytesConsumed + 1
        pos := s.pos + 1
        micro := .boundary }) ∧
    (s.source.length ≤ s.pos →
      exec (.lumaDelta dg drdg dbdg) s = .next { s with
        sink := s.sink ++ [p]
        pixelCount := s.pixelCount + 1
        cache := if s.policy = .all then cacheInsert p s.cache else s.cache
        prev := p
        phase := .error, errCode := .truncatedStream, micro := .idle }))

/-- R93: the tags 0xC0..0xFD; `n` copies of the previous pixel. Their inserts come to one insert (R94). -/
def Obligations.RunRecord : Prop :=
  (∀ t b1 b2 b3 b4 : Byte, 0xC0 ≤ t.toNat → t.toNat ≤ 0xFD →
    decodeRecord t b1 b2 b3 b4 = .run (t.toNat % 64 + 1)) ∧
  (∀ (n : Nat) (s : State), 1 ≤ n → n ≤ 62 →
    exec (.run n) s = .next { s with
      sink := s.sink ++ List.replicate n s.prev
      pixelCount := s.pixelCount + BitVec.ofNat 64 n
      cache := if s.policy = .all then cacheInsert s.prev s.cache else s.cache
      micro := .boundary })

/-- R90: every channel of a delta record is reduced modulo 256 by itself; alpha stays; and, the spec's own inference
from R10, in any order of its terms. -/
def Obligations.DeltaChannelsWrap : Prop :=
  (∀ (c : Byte) (d : Int), ((addDelta c d).toNat : Int) = ((c.toNat : Int) + d) % 256) ∧
  (∀ (c : Byte) (d e : Int), addDelta (addDelta c d) e = addDelta c (d + e) ∧
    addDelta c (d + e) = addDelta (addDelta c e) d ∧ addDelta c (d + e) = c + wrap8 d + wrap8 e) ∧
  (∀ (i : Instr) (s t : State), exec i s = .next t →
    (∃ dr dg db, i = .smallDelta dr dg db ∧ t.prev.r = addDelta s.prev.r dr ∧ t.prev.g = addDelta s.prev.g dg ∧
      t.prev.b = addDelta s.prev.b db ∧ t.prev.a = s.prev.a) ∨
    (∃ dg drdg dbdg, i = .lumaDelta dg drdg dbdg ∧ t.prev.r = addDelta s.prev.r (drdg + dg) ∧
      t.prev.g = addDelta s.prev.g dg ∧ t.prev.b = addDelta s.prev.b (dbdg + dg) ∧ t.prev.a = s.prev.a) ∨
    ((∀ dr dg db, i ≠ .smallDelta dr dg db) ∧ ∀ dg drdg dbdg, i ≠ .lumaDelta dg drdg dbdg))

/-- R7, R79: under LITERAL_ONLY each literal record inserts its pixel, and no other instruction writes the cache. -/
def Obligations.LiteralOnlyKeepsCache : Prop :=
  ∀ (i : Instr) (s t : State), s.policy = .literalOnly → exec i s = .next t →
    (∀ r g b a, i = .literalRGBA r g b a → t.cache = cacheInsert ⟨r, g, b, a⟩ s.cache) ∧
    (∀ r g b, i = .literalRGB r g b → t.cache = cacheInsert ⟨r, g, b, s.prev.a⟩ s.cache) ∧
    ((∀ r g b a, i ≠ .literalRGBA r g b a) → (∀ r g b, i ≠ .literalRGB r g b) → t.cache = s.cache)

/-- What no record changes: the header registers, and the host's data. What it does change, it changes forwards: the
pixels accepted stay, and the read position never falls (R48, R72, R85, R106). Of the cache only the slot of the new
`prev` changes (R36, R79), and none of it where nothing is inserted: the end marker and a failed lookup commit
nothing, and under LITERAL_ONLY the records that are no literals insert nothing. -/
def Obligations.RecordFrame : Prop :=
  ∀ (i : Instr) (s t : State), exec i s = .next t →
    t.header = s.header ∧ t.hdrValid = s.hdrValid ∧ t.source = s.source ∧ t.schedule = s.schedule ∧
    t.policy = s.policy ∧ s.sink <+: t.sink ∧ s.pos ≤ t.pos ∧
    (∀ k : Fin 64, k ≠ cacheHash t.prev → cacheLookup k t.cache = cacheLookup k s.cache) ∧
    (i = .endMarker ∨ (∃ idx, i = .cachedIndex idx ∧ cacheLookup idx s.cache = none) →
      t.cache = s.cache ∧ t.sink = s.sink ∧ t.pixelCount = s.pixelCount ∧ t.prev = s.prev) ∧
    (s.policy = .literalOnly → isLiteral i = false → t.cache = s.cache)

/-- R72: once STREAMING, what the header registers hold (the enumeration bytes, and the width, height and magic with
them) changes no later step: neither a whole operation nor a clock edge. -/
def Obligations.HeaderChangesNoRecord : Prop :=
  ∀ (s : State) (h : HeaderBuffer), s.phase = .streaming → s.pointFits = true →
    (∀ t, s.schedule = [] → step s = .next t → step { s with header := h } = .next { t with header := h }) ∧
    (∀ e : Edge, e.rst = false → clockEdge e { s with header := h } = { clockEdge e s with header := h })

/-! ### Errors and terminal phases (60_exceptions.md) -/

/-- R100: error entry writes the code and the phase, abandons the pending primitive, and keeps every other register. -/
def Obligations.ErrorEntryKeepsRegisters : Prop :=
  ∀ (e : ErrCode) (s : State),
    (s.raise e).errCode = e ∧ (s.raise e).phase = .error ∧
    (s.raise e).inReady = false ∧ (s.raise e).offered = none ∧
    (s.raise e).bytesConsumed = s.bytesConsumed ∧ (s.raise e).pixelCount = s.pixelCount ∧
    (s.raise e).prev = s.prev ∧ (s.raise e).window = s.window ∧ (s.raise e).cache = s.cache ∧
    (s.raise e).header = s.header ∧ (s.raise e).hdrValid = s.hdrValid

/-- R101, R109: IDLE, DONE and ERROR are left only by `start` or `rst`; until then nothing transfers and nothing changes. -/
def Obligations.QuiescentPhasesHold : Prop :=
  ∀ s : State, (s.phase = .idle ∨ s.phase = .done ∨ s.phase = .error) →
    s.inReady = false ∧ s.offered = none ∧
    (∀ e : Edge, e.rst = false → e.start = none → clockEdge e s = s) ∧
    (s.schedule = [] → step s = .next s)

/-- R98, the spec's own inference from R77 and R39: after a failed lookup, `bytes_consumed - 9` is the offset of the tag, whose low six bits are the empty slot. -/
def Obligations.FailedLookupOffset : Prop :=
  ∀ s t : State, s.Inv → s.AtBoundary → step s = .next t → t.errCode = .invalidCacheReference →
    t.failedIndexOffset = BitVec.ofNat 64 s.fp ∧ t.pixelCount = s.pixelCount ∧ t.sink = s.sink ∧
    ∃ tag, s.source[s.fp]? = some tag ∧ ∃ idx : Fin 64, idx.val = tag.toNat % 64 ∧ t.cacheValid idx = false

/-- R97: a served TruncatedStream has consumed the whole source, whose length tells the header, the priming and the
records apart; the pixels committed, one before a failed refill among them, are counted. That the source is whole is
the served host's (notes/assumptions/18.md). -/
def Obligations.TruncationConsumesSource : Prop :=
  ∀ s t : State, s.Inv → s.schedule = [] → s.phase ≠ .error → step s = .next t → t.errCode = .truncatedStream →
    t.bytesConsumed = BitVec.ofNat 64 t.source.length ∧
    t.pixelCount = BitVec.ofNat 64 t.sink.length ∧
    (t.hdrValid = false ↔ t.source.length < 14) ∧
    (∀ k, s.micro = .header k → t.source.length < 14) ∧
    (∀ k, s.micro = .prime k → 14 ≤ t.source.length ∧ t.source.length < 22) ∧
    (s.micro = .boundary → 22 ≤ t.source.length) ∧
    (∀ n, s.micro = .refill n → 22 ≤ t.source.length ∧ t.sink = s.sink) ∧
    (∀ e, s.micro = .emit e →
      22 ≤ t.source.length ∧ t.sink = s.sink ++ List.replicate (e.more + 1) e.pixel)

/-- R95, R99: the errors that are raised. UnknownOpcode is not among them. -/
def Obligations.UnknownOpcodeNeverRaised : Prop :=
  ∀ s t : State, step s = .next t → t.errCode = .unknownOpcode → s.errCode = .unknownOpcode

/-- R81, R102: a decode that ends in ERROR yields no image; one that ends in DONE yields its header and its pixels. -/
def Obligations.ImageOnlyWhenDone : Prop :=
  ∀ s : State, s.Inv →
    (s.phase = .error → s.image? = none) ∧
    (s.phase = .done → s.image? = some (s.header, s.sink) ∧ s.hdrValid = true ∧
      s.pixelCount = BitVec.ofNat 64 s.sink.length ∧
      (s.source.drop (s.pos - 8)).take 8 = marker.toList)

/-! ### Reset and start (70_reset_and_hazards.md) -/

/-- R110, the values the rule gives. -/
def Obligations.ResetValues : Prop :=
  State.reset.phase = .idle ∧ State.reset.errCode = .none ∧ State.reset.bytesConsumed = 0 ∧
  State.reset.pixelCount = 0 ∧ State.reset.prev = ⟨0, 0, 0, 255⟩ ∧
  (∀ k : Fin 8, State.reset.window[k] = 0x00) ∧ (∀ i, State.reset.cacheValid i = false) ∧
  (∀ k : Fin 14, State.reset.header[k] = 0x00) ∧ State.reset.hdrValid = false ∧ State.reset.micro = .idle ∧
  State.reset.inReady = false ∧ State.reset.offered = none

/-- R104, R110: `rst` in any phase, whatever else is on the pins; a pixel on the port is withdrawn. That the pixels
accepted before stay listed is the model's choice (DESIGN CHOICE, notes/assumptions/6.md). -/
def Obligations.RstFromAnyState : Prop :=
  ∀ (e : Edge) (es : List Edge) (s : State), s.schedule = e :: es → e.rst = true → ∃ t, step s = .next t ∧
    t.phase = .idle ∧ t.errCode = .none ∧ t.bytesConsumed = 0 ∧ t.pixelCount = 0 ∧ t.prev = ⟨0, 0, 0, 255⟩ ∧
    (∀ k : Fin 8, t.window[k] = 0x00) ∧ (∀ i, t.cacheValid i = false) ∧ (∀ k : Fin 14, t.header[k] = 0x00) ∧
    t.hdrValid = false ∧ t.micro = .idle ∧ t.inReady = false ∧ t.offered = none ∧ t.sink = s.sink

/-- R111: `start` in IDLE, DONE and ERROR begins a decode at offset 0 of its source; `start` while busy is ignored.
That the source comes with the edge is the model's choice (DESIGN CHOICE, notes/assumptions/7.md). -/
def Obligations.StartBeginsDecode : Prop :=
  (∀ (e : Edge) (source : List Byte) (s : State), e.rst = false → e.start = some source →
    (s.phase = .idle ∨ s.phase = .done ∨ s.phase = .error) → ∃ t, clockEdge e s = t ∧
    t.phase = .awaitingHeader ∧ t.errCode = .none ∧ t.bytesConsumed = 0 ∧ t.pixelCount = 0 ∧
    t.prev = ⟨0, 0, 0, 255⟩ ∧ (∀ k : Fin 8, t.window[k] = 0x00) ∧ (∀ i, t.cacheValid i = false) ∧
    (∀ k : Fin 14, t.header[k] = 0x00) ∧ t.hdrValid = false ∧ t.micro = .header 0 ∧ t.pos = 0 ∧ t.source = source) ∧
  (∀ (e : Edge) (s : State), e.rst = false → (s.phase = .awaitingHeader ∨ s.phase = .streaming) →
    clockEdge e s = clockEdge { e with start := none } s)

/-- R53, R111: nothing of one decode is visible to the next. -/
def Obligations.NothingCarriesOver : Prop :=
  ∀ (e : Edge) (source : List Byte) (s s' : State), e.rst = false → e.start = some source →
    s.quiescent → s'.quiescent → s.policy = s'.policy → s.schedule = s'.schedule →
    clockEdge e s = clockEdge e s'

/-! ### Ports and hazards (10_state.md, 20_memory.md, 70_reset_and_hazards.md) -/

/-- R28: `in_ready` and `out_valid` are never both 1, and with `rst` = 1 every output is 0. -/
def Obligations.PortsAreExclusive : Prop :=
  (∀ (rst : Bool) (s : State), ¬ ((s.outputs rst).inReady = true ∧ (s.outputs rst).outValid = true)) ∧
  (∀ s : State, s.outputs true = ⟨false, some 0, false, 0, 0, false, false, false, false, 0, 0, 0, 0, 0, 0, 0⟩)

/-- R43: the packing of `out_pixel` and `hdr_magic`. -/
def Obligations.PortPacking : Prop :=
  (∀ p : Pixel, ((packPixel p).extractLsb' 24 8 = p.r ∧ (packPixel p).extractLsb' 16 8 = p.g ∧ (packPixel p).extractLsb' 8 8 = p.b ∧
    (packPixel p).extractLsb' 0 8 = p.a)) ∧
  (∀ s : State, s.hdrMagic.extractLsb' 24 8 = s.header[0] ∧ s.hdrMagic.extractLsb' 16 8 = s.header[1] ∧
    s.hdrMagic.extractLsb' 8 8 = s.header[2] ∧ s.hdrMagic.extractLsb' 0 8 = s.header[3] ∧
    (s.outputs false).hdrMagic = s.hdrMagic ∧ ∀ p, s.offered = some p → (s.outputs false).outPixel = some (packPixel p))

/-- R15, R16, R26: the flags are functions of `phase` alone, and `err_code` is nonzero exactly in ERROR. -/
def Obligations.FlagsFollowPhase : Prop :=
  ∀ s : State,
    (s.done = true ↔ s.phase.code = 3) ∧ (s.error = true ↔ s.phase.code = 4) ∧
    (s.busy = true ↔ s.phase.code = 1 ∨ s.phase.code = 2) ∧
    (s.outputs false).done = s.done ∧ (s.outputs false).error = s.error ∧ (s.outputs false).busy = s.busy ∧
    (s.Inv → (s.errCode.code ≠ 0 ↔ s.phase.code = 4))

/-- R31: one edge of a read. A byte offered transfers whatever `in_eof` is; with no byte, `in_eof` raises
TruncatedStream; with neither, the decoder waits. That `in_valid` = 1 beyond the end of the source offers no byte is the
model's choice (DESIGN CHOICE, notes/assumptions/8.md): R113 lets no host do it. -/
def Obligations.ReadTransferRules : Prop :=
  ∀ (e : Edge) (s : State), e.rst = false → s.inReady = true →
    (∀ b, e.inValid = true → s.source[s.pos]? = some b →
      (clockEdge e s).pos = s.pos + 1 ∧ (clockEdge e s).bytesConsumed = s.bytesConsumed + 1 ∧
      clockEdge e s = clockEdge { e with inEof := false } s) ∧
    (e.inValid = false ∨ s.source.length ≤ s.pos →
      clockEdge e s =
        if e.inEof then { s with phase := .error, errCode := .truncatedStream, micro := .idle } else s)

/-- R118: while a pixel waits for `out_ready` the decoder reads no byte and changes no state. -/
def Obligations.BackPressureHolds : Prop :=
  ∀ (e : Edge) (s : State) (p : Pixel), s.offered = some p → e.rst = false → e.outReady = false →
    clockEdge e s = s ∧ s.inReady = false

/-- R32, R79: an accepted pixel is appended to the output, counted, cached under the policy, and becomes `prev`. -/
def Obligations.AcceptedPixelIsCommitted : Prop :=
  ∀ (e : Edge) (s : State) (em : Emission), s.busy = true → s.micro = .emit em → e.rst = false → e.outReady = true →
    clockEdge e s = { s with
      sink := s.sink ++ [em.pixel]
      pixelCount := s.pixelCount + 1
      cache := if s.policy = .all ∨ em.cls = .literalRGB ∨ em.cls = .literalRGBA then cacheInsert em.pixel s.cache
        else s.cache
      prev := em.pixel
      micro := if em.more ≠ 0 then .emit ⟨em.pixel, em.cls, em.more - 1⟩
        else if em.cls.operandBytes = 0 then .boundary else .refill (em.cls.operandBytes - 1) }

/-- R49, R115: the last pixel of every record that inserts (any record that commits under ALL, a literal under either
policy) is found by a CachedIndex record after it, from every state with the cache it left (the tag fetch between them,
R77, leaves the cache alone); and it is still there after any further instruction whose last pixel has another hash. -/
def Obligations.LookupSeesPreviousRecord : Prop :=
  ∀ (i : Instr) (s t : State), (s.policy = .all ∨ isLiteral i = true) → commitsPixel i s = true →
    exec i s = .next t →
    (∃ ps, t.sink = s.sink ++ ps ++ [t.prev]) ∧
    (∀ t' : State, t'.cache = t.cache → ∃ u, exec (.cachedIndex (cacheHash t.prev)) t' = .next u ∧
      u.sink = t'.sink ++ [t.prev] ∧ u.prev = t.prev ∧ u.pixelCount = t'.pixelCount + 1) ∧
    (∀ (t' : State) (j : Instr) (v : State), cacheLookup (cacheHash t.prev) t'.cache = some t.prev →
      exec j t' = .next v → cacheHash v.prev ≠ cacheHash t.prev →
      cacheLookup (cacheHash t.prev) v.cache = some t.prev)

/-! ### The whole machine -/

/-- The invariant holds after reset. -/
def Obligations.ResetMeetsInvariant : Prop := State.reset.Inv

/-- The invariant is kept by every step: clock edges of any kind, and whole operations. Its clauses on the cache (R37)
and the window (R39) are the spec's own inferences. -/
def Obligations.InvariantKept : Prop := ∀ s t : State, s.Inv → step s = .next t → t.Inv

/-- No step stops: errors are phases of the machine (R95, R100). -/
def Obligations.EveryStepAnswers : Prop := ∀ s : State, ∃ t, step s = .next t

/-- R114, the spec's own inference from R113 and R48: whatever a dutiful host's timing, a decode that ends under its schedule ends in the same state as the decode
that is served at once. -/
def Obligations.ScheduleIndependence : Prop :=
  ∀ (s : State) (es : List Edge), s.Inv → s.schedule = [] → dutifulEdges es s → (clockEdges es s).quiescent →
    ∃ k, stepsTo k s (clockEdges es s)

/-- R82, the spec's own inference from R77: a served decode always ends. From an opcode boundary it takes at most one step for each byte left, and one
more; from any other point of a decode, one more than that. -/
def Obligations.DecodeEnds : Prop :=
  ∀ s : State, s.Inv → s.schedule = [] →
    ∃ k t, stepsTo k s t ∧ t.quiescent ∧ k ≤ s.source.length - s.pos + 2 ∧
      (s.micro = .boundary → k ≤ s.source.length - s.pos + 1)

/-- R82, the spec's own inference: at most 62 pixels are committed for each byte left. -/
def Obligations.PixelsAreBounded : Prop :=
  ∀ (s t : State) (k : Nat), s.Inv → s.AtBoundary → stepsTo k s t →
    t.sink.length ≤ s.sink.length + 62 * (s.source.length - s.pos)

/-- R46, R84: no byte is looked at that is not consumed. A source that agrees on the bytes consumed gives the same
step, whatever follows them. -/
def Obligations.NoReadAhead : Prop :=
  ∀ (s t : State) (source : List Byte), s.schedule = [] → step s = .next t → t.errCode ≠ .truncatedStream →
    (∀ k, k < t.pos → source[k]? = s.source[k]?) →
    step { s with source := source } = .next { t with source := source }
end

