-- ==== Sys2Proof/Laws/Decode.lean ====
section
/-! SUPPORT. Fields, windows and big-endian words as the decoder takes them apart: each fact once, in arithmetic. -/

namespace Sys2Proof

/-- The fields of a tag or operand byte (R59) as quotients and remainders. -/
theorem field_arith (t : Byte) :
    field t 5 0 = t.toNat % 64 ∧ field t 5 4 = t.toNat / 16 % 4 ∧ field t 3 2 = t.toNat / 4 % 4 ∧
    field t 1 0 = t.toNat % 4 ∧ field t 7 4 = t.toNat / 16 ∧ field t 3 0 = t.toNat % 16 := by
  have := t.isLt
  simp [field]
  omega

/-- A window as the list of its bytes, the front first. -/
theorem window_toList (w : Window) : w.toList = [w[0], w[1], w[2], w[3], w[4], w[5], w[6], w[7]] := by
  apply List.ext_getElem (by simp)
  intro i h1 _
  simp at h1
  have : i = 0 ∨ i = 1 ∨ i = 2 ∨ i = 3 ∨ i = 4 ∨ i = 5 ∨ i = 6 ∨ i = 7 := by omega
  rcases this with h | h | h | h | h | h | h | h <;> subst h <;> simp

/-- A window is the vector of its bytes. -/
theorem window_eta (w : Window) : #v[w[0], w[1], w[2], w[3], w[4], w[5], w[6], w[7]] = w := by
  ext i hi
  have : i = 0 ∨ i = 1 ∨ i = 2 ∨ i = 3 ∨ i = 4 ∨ i = 5 ∨ i = 6 ∨ i = 7 := by omega
  rcases this with h | h | h | h | h | h | h | h <;> subst h <;> rfl

/-- The record in a full window decodes: the window is long enough for every class. -/
theorem decode_window (w : Window) : ∃ rest, decode w.toList = .ok (decodeWindow w, rest) := by
  have hl := window_toList w
  unfold decodeWindow
  split
  · subst_vars; exact ⟨_, rfl⟩
  · next hm =>
    have hne : ¬ [w[0], w[1], w[2], w[3], w[4], w[5], w[6], w[7]].take 8 = marker.toList := by
      intro h
      rw [← hl, List.take_of_length_le (by simp)] at h
      exact hm (Vector.toList_inj.mp h)
    rw [hl, decode, if_neg hne, if_neg (by cases classify w[0] <;> simp [TagClass.operandBytes])]
    exact ⟨_, rfl⟩

/-- The length of the record at the front of a window (R58). -/
theorem decodeRecord_length (t b1 b2 b3 b4 : Byte) :
    (decodeRecord t b1 b2 b3 b4).length = (classify t).operandBytes + 1 := by
  unfold decodeRecord; cases classify t <;> rfl

/-- Byte `k` of a big-endian word is a slice of it (R41). -/
theorem bigEndianByte_eq (v : Word32) (k : Nat) : bigEndianByte v k = v.extractLsb' (8 * (3 - k)) 8 := by
  apply BitVec.eq_of_toNat_eq
  simp [bigEndianByte, Nat.shiftRight_eq_div_pow]

/-- The four bytes of a big-endian word, put together again (R41). -/
theorem bigEndian_append (v : Word32) :
    bigEndianByte v 0 ++ bigEndianByte v 1 ++ bigEndianByte v 2 ++ bigEndianByte v 3 = v := by
  simp only [bigEndianByte_eq]
  ext i hi
  simp only [BitVec.getElem_append, BitVec.getElem_extractLsb']
  split
  · simp [BitVec.getLsbD_eq_getElem hi]
  · split
    · rw [show 8 * (3 - 2) + (i - 8) = i by omega, BitVec.getLsbD_eq_getElem hi]
    · split
      · rw [show 8 * (3 - 1) + (i - 8 - 8) = i by omega, BitVec.getLsbD_eq_getElem hi]
      · rw [show 8 * (3 - 0) + (i - 8 - 8 - 8) = i by omega, BitVec.getLsbD_eq_getElem hi]

end Sys2Proof
end

