-- ==== Sys2Proof/Laws/State.lean ====
section
/-! SUPPORT. One lemma per field for every shared update of the state, so that no proof unfolds a record update. -/

namespace Sys2Proof.Machine

/-! ### `State.reset` -/

@[simp] theorem State.reset_phase : State.reset.phase = .idle := rfl
@[simp] theorem State.reset_errCode : State.reset.errCode = .none := rfl
@[simp] theorem State.reset_bytesConsumed : State.reset.bytesConsumed = 0 := rfl
@[simp] theorem State.reset_pixelCount : State.reset.pixelCount = 0 := rfl
@[simp] theorem State.reset_prev : State.reset.prev = Pixel.opaqueBlack := rfl
@[simp] theorem State.reset_window : State.reset.window = Vector.replicate 8 0x00 := rfl
@[simp] theorem State.reset_cache : State.reset.cache = Vector.replicate 64 none := rfl
@[simp] theorem State.reset_header : State.reset.header = Vector.replicate 14 0x00 := rfl
@[simp] theorem State.reset_hdrValid : State.reset.hdrValid = false := rfl
@[simp] theorem State.reset_micro : State.reset.micro = .idle := rfl
@[simp] theorem State.reset_source : State.reset.source = [] := rfl
@[simp] theorem State.reset_pos : State.reset.pos = 0 := rfl
@[simp] theorem State.reset_sink : State.reset.sink = [] := rfl
@[simp] theorem State.reset_schedule : State.reset.schedule = [] := rfl
@[simp] theorem State.reset_policy : State.reset.policy = Config.hardwarePolicy := rfl

/-! ### `State.consume` -/

@[simp] theorem State.consume_phase (s : State) : s.consume.phase = s.phase := rfl
@[simp] theorem State.consume_errCode (s : State) : s.consume.errCode = s.errCode := rfl
@[simp] theorem State.consume_bytesConsumed (s : State) : s.consume.bytesConsumed = s.bytesConsumed + 1 := rfl
@[simp] theorem State.consume_pixelCount (s : State) : s.consume.pixelCount = s.pixelCount := rfl
@[simp] theorem State.consume_prev (s : State) : s.consume.prev = s.prev := rfl
@[simp] theorem State.consume_window (s : State) : s.consume.window = s.window := rfl
@[simp] theorem State.consume_cache (s : State) : s.consume.cache = s.cache := rfl
@[simp] theorem State.consume_header (s : State) : s.consume.header = s.header := rfl
@[simp] theorem State.consume_hdrValid (s : State) : s.consume.hdrValid = s.hdrValid := rfl
@[simp] theorem State.consume_micro (s : State) : s.consume.micro = s.micro := rfl
@[simp] theorem State.consume_source (s : State) : s.consume.source = s.source := rfl
@[simp] theorem State.consume_pos (s : State) : s.consume.pos = s.pos + 1 := rfl
@[simp] theorem State.consume_sink (s : State) : s.consume.sink = s.sink := rfl
@[simp] theorem State.consume_schedule (s : State) : s.consume.schedule = s.schedule := rfl
@[simp] theorem State.consume_policy (s : State) : s.consume.policy = s.policy := rfl

/-! ### `State.readShift` -/

@[simp] theorem State.readShift_phase (b : Byte) (s : State) : (s.readShift b).phase = s.phase := rfl
@[simp] theorem State.readShift_errCode (b : Byte) (s : State) : (s.readShift b).errCode = s.errCode := rfl
@[simp] theorem State.readShift_bytesConsumed (b : Byte) (s : State) : (s.readShift b).bytesConsumed = s.bytesConsumed + 1 := rfl
@[simp] theorem State.readShift_pixelCount (b : Byte) (s : State) : (s.readShift b).pixelCount = s.pixelCount := rfl
@[simp] theorem State.readShift_prev (b : Byte) (s : State) : (s.readShift b).prev = s.prev := rfl
@[simp] theorem State.readShift_window (b : Byte) (s : State) : (s.readShift b).window = shift b s.window := rfl
@[simp] theorem State.readShift_cache (b : Byte) (s : State) : (s.readShift b).cache = s.cache := rfl
@[simp] theorem State.readShift_header (b : Byte) (s : State) : (s.readShift b).header = s.header := rfl
@[simp] theorem State.readShift_hdrValid (b : Byte) (s : State) : (s.readShift b).hdrValid = s.hdrValid := rfl
@[simp] theorem State.readShift_micro (b : Byte) (s : State) : (s.readShift b).micro = s.micro := rfl
@[simp] theorem State.readShift_source (b : Byte) (s : State) : (s.readShift b).source = s.source := rfl
@[simp] theorem State.readShift_pos (b : Byte) (s : State) : (s.readShift b).pos = s.pos + 1 := rfl
@[simp] theorem State.readShift_sink (b : Byte) (s : State) : (s.readShift b).sink = s.sink := rfl
@[simp] theorem State.readShift_schedule (b : Byte) (s : State) : (s.readShift b).schedule = s.schedule := rfl
@[simp] theorem State.readShift_policy (b : Byte) (s : State) : (s.readShift b).policy = s.policy := rfl

/-! ### `State.raise` -/

@[simp] theorem State.raise_phase (e : ErrCode) (s : State) : (s.raise e).phase = .error := rfl
@[simp] theorem State.raise_errCode (e : ErrCode) (s : State) : (s.raise e).errCode = e := rfl
@[simp] theorem State.raise_bytesConsumed (e : ErrCode) (s : State) : (s.raise e).bytesConsumed = s.bytesConsumed := rfl
@[simp] theorem State.raise_pixelCount (e : ErrCode) (s : State) : (s.raise e).pixelCount = s.pixelCount := rfl
@[simp] theorem State.raise_prev (e : ErrCode) (s : State) : (s.raise e).prev = s.prev := rfl
@[simp] theorem State.raise_window (e : ErrCode) (s : State) : (s.raise e).window = s.window := rfl
@[simp] theorem State.raise_cache (e : ErrCode) (s : State) : (s.raise e).cache = s.cache := rfl
@[simp] theorem State.raise_header (e : ErrCode) (s : State) : (s.raise e).header = s.header := rfl
@[simp] theorem State.raise_hdrValid (e : ErrCode) (s : State) : (s.raise e).hdrValid = s.hdrValid := rfl
@[simp] theorem State.raise_micro (e : ErrCode) (s : State) : (s.raise e).micro = .idle := rfl
@[simp] theorem State.raise_source (e : ErrCode) (s : State) : (s.raise e).source = s.source := rfl
@[simp] theorem State.raise_pos (e : ErrCode) (s : State) : (s.raise e).pos = s.pos := rfl
@[simp] theorem State.raise_sink (e : ErrCode) (s : State) : (s.raise e).sink = s.sink := rfl
@[simp] theorem State.raise_schedule (e : ErrCode) (s : State) : (s.raise e).schedule = s.schedule := rfl
@[simp] theorem State.raise_policy (e : ErrCode) (s : State) : (s.raise e).policy = s.policy := rfl

/-! ### `State.commit` -/

@[simp] theorem State.commit_phase (p : Pixel) (cls : TagClass) (s : State) : (s.commit p cls).phase = s.phase := rfl
@[simp] theorem State.commit_errCode (p : Pixel) (cls : TagClass) (s : State) : (s.commit p cls).errCode = s.errCode := rfl
@[simp] theorem State.commit_bytesConsumed (p : Pixel) (cls : TagClass) (s : State) : (s.commit p cls).bytesConsumed = s.bytesConsumed := rfl
@[simp] theorem State.commit_pixelCount (p : Pixel) (cls : TagClass) (s : State) : (s.commit p cls).pixelCount = s.pixelCount + 1 := rfl
@[simp] theorem State.commit_prev (p : Pixel) (cls : TagClass) (s : State) : (s.commit p cls).prev = p := rfl
@[simp] theorem State.commit_window (p : Pixel) (cls : TagClass) (s : State) : (s.commit p cls).window = s.window := rfl
@[simp] theorem State.commit_cache (p : Pixel) (cls : TagClass) (s : State) : (s.commit p cls).cache = if inserts s.policy cls then cacheInsert p s.cache else s.cache := rfl
@[simp] theorem State.commit_header (p : Pixel) (cls : TagClass) (s : State) : (s.commit p cls).header = s.header := rfl
@[simp] theorem State.commit_hdrValid (p : Pixel) (cls : TagClass) (s : State) : (s.commit p cls).hdrValid = s.hdrValid := rfl
@[simp] theorem State.commit_micro (p : Pixel) (cls : TagClass) (s : State) : (s.commit p cls).micro = s.micro := rfl
@[simp] theorem State.commit_source (p : Pixel) (cls : TagClass) (s : State) : (s.commit p cls).source = s.source := rfl
@[simp] theorem State.commit_pos (p : Pixel) (cls : TagClass) (s : State) : (s.commit p cls).pos = s.pos := rfl
@[simp] theorem State.commit_sink (p : Pixel) (cls : TagClass) (s : State) : (s.commit p cls).sink = s.sink ++ [p] := rfl
@[simp] theorem State.commit_schedule (p : Pixel) (cls : TagClass) (s : State) : (s.commit p cls).schedule = s.schedule := rfl
@[simp] theorem State.commit_policy (p : Pixel) (cls : TagClass) (s : State) : (s.commit p cls).policy = s.policy := rfl

/-! ### `State.offer` -/

@[simp] theorem State.offer_phase (p : Pixel) (cls : TagClass) (more : Nat) (s : State) : (s.offer p cls more).phase = s.phase := rfl
@[simp] theorem State.offer_errCode (p : Pixel) (cls : TagClass) (more : Nat) (s : State) : (s.offer p cls more).errCode = s.errCode := rfl
@[simp] theorem State.offer_bytesConsumed (p : Pixel) (cls : TagClass) (more : Nat) (s : State) : (s.offer p cls more).bytesConsumed = s.bytesConsumed := rfl
@[simp] theorem State.offer_pixelCount (p : Pixel) (cls : TagClass) (more : Nat) (s : State) : (s.offer p cls more).pixelCount = s.pixelCount := rfl
@[simp] theorem State.offer_prev (p : Pixel) (cls : TagClass) (more : Nat) (s : State) : (s.offer p cls more).prev = s.prev := rfl
@[simp] theorem State.offer_window (p : Pixel) (cls : TagClass) (more : Nat) (s : State) : (s.offer p cls more).window = s.window := rfl
@[simp] theorem State.offer_cache (p : Pixel) (cls : TagClass) (more : Nat) (s : State) : (s.offer p cls more).cache = s.cache := rfl
@[simp] theorem State.offer_header (p : Pixel) (cls : TagClass) (more : Nat) (s : State) : (s.offer p cls more).header = s.header := rfl
@[simp] theorem State.offer_hdrValid (p : Pixel) (cls : TagClass) (more : Nat) (s : State) : (s.offer p cls more).hdrValid = s.hdrValid := rfl
@[simp] theorem State.offer_micro (p : Pixel) (cls : TagClass) (more : Nat) (s : State) : (s.offer p cls more).micro = .emit ⟨p, cls, more⟩ := rfl
@[simp] theorem State.offer_source (p : Pixel) (cls : TagClass) (more : Nat) (s : State) : (s.offer p cls more).source = s.source := rfl
@[simp] theorem State.offer_pos (p : Pixel) (cls : TagClass) (more : Nat) (s : State) : (s.offer p cls more).pos = s.pos := rfl
@[simp] theorem State.offer_sink (p : Pixel) (cls : TagClass) (more : Nat) (s : State) : (s.offer p cls more).sink = s.sink := rfl
@[simp] theorem State.offer_schedule (p : Pixel) (cls : TagClass) (more : Nat) (s : State) : (s.offer p cls more).schedule = s.schedule := rfl
@[simp] theorem State.offer_policy (p : Pixel) (cls : TagClass) (more : Nat) (s : State) : (s.offer p cls more).policy = s.policy := rfl

/-! ### `State.begin` -/

@[simp] theorem State.begin_phase (source : List Byte) (s : State) : (s.begin source).phase = .awaitingHeader := rfl
@[simp] theorem State.begin_errCode (source : List Byte) (s : State) : (s.begin source).errCode = .none := rfl
@[simp] theorem State.begin_bytesConsumed (source : List Byte) (s : State) : (s.begin source).bytesConsumed = 0 := rfl
@[simp] theorem State.begin_pixelCount (source : List Byte) (s : State) : (s.begin source).pixelCount = 0 := rfl
@[simp] theorem State.begin_prev (source : List Byte) (s : State) : (s.begin source).prev = Pixel.opaqueBlack := rfl
@[simp] theorem State.begin_window (source : List Byte) (s : State) : (s.begin source).window = Vector.replicate 8 0x00 := rfl
@[simp] theorem State.begin_cache (source : List Byte) (s : State) : (s.begin source).cache = Vector.replicate 64 none := rfl
@[simp] theorem State.begin_header (source : List Byte) (s : State) : (s.begin source).header = Vector.replicate 14 0x00 := rfl
@[simp] theorem State.begin_hdrValid (source : List Byte) (s : State) : (s.begin source).hdrValid = false := rfl
@[simp] theorem State.begin_micro (source : List Byte) (s : State) : (s.begin source).micro = .header 0 := rfl
@[simp] theorem State.begin_source (source : List Byte) (s : State) : (s.begin source).source = source := rfl
@[simp] theorem State.begin_pos (source : List Byte) (s : State) : (s.begin source).pos = 0 := rfl
@[simp] theorem State.begin_sink (source : List Byte) (s : State) : (s.begin source).sink = [] := rfl
@[simp] theorem State.begin_schedule (source : List Byte) (s : State) : (s.begin source).schedule = s.schedule := rfl
@[simp] theorem State.begin_policy (source : List Byte) (s : State) : (s.begin source).policy = s.policy := rfl

/-! ### `State.hardReset` -/

@[simp] theorem State.hardReset_phase (s : State) : s.hardReset.phase = .idle := rfl
@[simp] theorem State.hardReset_errCode (s : State) : s.hardReset.errCode = .none := rfl
@[simp] theorem State.hardReset_bytesConsumed (s : State) : s.hardReset.bytesConsumed = 0 := rfl
@[simp] theorem State.hardReset_pixelCount (s : State) : s.hardReset.pixelCount = 0 := rfl
@[simp] theorem State.hardReset_prev (s : State) : s.hardReset.prev = Pixel.opaqueBlack := rfl
@[simp] theorem State.hardReset_window (s : State) : s.hardReset.window = Vector.replicate 8 0x00 := rfl
@[simp] theorem State.hardReset_cache (s : State) : s.hardReset.cache = Vector.replicate 64 none := rfl
@[simp] theorem State.hardReset_header (s : State) : s.hardReset.header = Vector.replicate 14 0x00 := rfl
@[simp] theorem State.hardReset_hdrValid (s : State) : s.hardReset.hdrValid = false := rfl
@[simp] theorem State.hardReset_micro (s : State) : s.hardReset.micro = .idle := rfl
@[simp] theorem State.hardReset_source (s : State) : s.hardReset.source = s.source := rfl
@[simp] theorem State.hardReset_pos (s : State) : s.hardReset.pos = 0 := rfl
@[simp] theorem State.hardReset_sink (s : State) : s.hardReset.sink = s.sink := rfl
@[simp] theorem State.hardReset_schedule (s : State) : s.hardReset.schedule = s.schedule := rfl
@[simp] theorem State.hardReset_policy (s : State) : s.hardReset.policy = s.policy := rfl

end Sys2Proof.Machine
end

