-- ==== Sys2Proof/Laws/Ops.lean ====
section
/-! SUPPORT. The spec lemmas of the shared operations: each says once what its operation answers. -/

namespace Sys2Proof.Machine

/-! ### The cache (R35 to R37) -/

@[simp] theorem cacheLookup_cacheInsert_same (p : Pixel) (c : Cache) :
    cacheLookup (cacheHash p) (cacheInsert p c) = some p := by
  simp [cacheLookup, cacheInsert]

theorem cacheLookup_cacheInsert_other {p : Pixel} {i : Fin 64} (c : Cache) (h : i ≠ cacheHash p) :
    cacheLookup i (cacheInsert p c) = cacheLookup i c := by
  simp [cacheLookup, cacheInsert, ne_comm.mp (Fin.val_ne_of_ne h)]

@[simp] theorem cacheLookup_replicate (i : Fin 64) : cacheLookup i (Vector.replicate 64 none) = none := by
  simp [cacheLookup]

theorem Memory.wf_iff {c : Cache} : Memory.wf c ↔ ∀ i p, cacheLookup i c = some p → cacheHash p = i := by
  simp only [Memory.wf, Option.all_eq_true, decide_eq_true_eq]

theorem Memory.wf_empty : Memory.wf (Vector.replicate 64 none) :=
  Memory.wf_iff.mpr fun _ _ h => by simp at h

theorem Memory.wf_cacheInsert {c : Cache} (p : Pixel) (h : Memory.wf c) : Memory.wf (cacheInsert p c) := by
  rw [Memory.wf_iff] at *
  intro i q hq
  by_cases hi : i = cacheHash p
  · subst hi; simp at hq; rw [hq]
  · rw [cacheLookup_cacheInsert_other c hi] at hq; exact h i q hq

theorem Memory.wf_commit {s : State} (p : Pixel) (cls : TagClass) (h : Memory.wf s.cache) :
    Memory.wf (s.commit p cls).cache := by
  rw [State.commit_cache]
  split
  · exact Memory.wf_cacheInsert p h
  · exact h

/-- Inserting twice is inserting once (R94). -/
theorem cacheInsert_twice (p : Pixel) (c : Cache) : cacheInsert p (cacheInsert p c) = cacheInsert p c := by
  ext i hi
  simp [cacheInsert, Vector.getElem_set]

@[simp] theorem inserts_all (cls : TagClass) : inserts .all cls = true := by cases cls <;> rfl

/-! ### The byte source -/

theorem State.nextByte?_eq_none {s : State} : s.nextByte? = none ↔ s.source.length ≤ s.pos := by
  simp [State.nextByte?]

theorem State.nextByte?_eq_some {s : State} {b : Byte} (h : s.nextByte? = some b) : s.pos < s.source.length := by
  by_contra hn
  rw [State.nextByte?_eq_none.mpr (by omega)] at h
  cases h

/-! ### Refill (R80) -/

/-- The window after a list of bytes has been shifted in, first byte first. -/
def shifts (bs : List Byte) (w : Window) : Window := bs.foldl (fun w b => shift b w) w

@[simp] theorem shifts_nil (w : Window) : shifts [] w = w := rfl
@[simp] theorem shifts_cons (b : Byte) (bs : List Byte) (w : Window) : shifts (b :: bs) w = shifts bs (shift b w) := rfl

/-- The state after the bytes `bs` have been read and shifted in. -/
def State.readShifts (bs : List Byte) (s : State) : State :=
  { s with bytesConsumed := s.bytesConsumed + BitVec.ofNat 64 bs.length, pos := s.pos + bs.length,
           window := shifts bs s.window }

theorem State.readShifts_nil (s : State) : s.readShifts [] = s := by
  simp [State.readShifts]

theorem State.readShifts_cons (b : Byte) (bs : List Byte) (s : State) :
    s.readShifts (b :: bs) = (s.readShift b).readShifts bs := by
  simp only [State.readShifts, State.readShift, State.consume, List.length_cons, shifts_cons, State.mk.injEq, true_and,
    and_true]
  refine ⟨?_, by omega⟩
  rw [Nat.add_comm, BitVec.ofNat_add, BitVec.add_assoc]; rfl

theorem nextByte?_of_drop {s : State} {b : Byte} {bs : List Byte} (h : s.source.drop s.pos = b :: bs) :
    s.nextByte? = some b ∧ (s.readShift b).source.drop (s.readShift b).pos = bs := by
  refine ⟨?_, ?_⟩
  · have := congrArg List.head? h
    simpa [State.nextByte?, List.head?_drop] using this
  · have := congrArg (List.drop 1) h
    simpa [List.drop_drop] using this

/-- Enough bytes: the refill ends at the next opcode boundary. -/
theorem refill_of_bytes : ∀ (bs : List Byte) (s : State), bs <+: s.source.drop s.pos →
    refill bs.length s = { s.readShifts bs with micro := .boundary }
  | [], s, _ => by simp [refill, State.readShifts]
  | b :: bs, s, ⟨rest, h⟩ => by
    obtain ⟨hb, hd⟩ := nextByte?_of_drop (bs := bs ++ rest) h.symm
    rw [List.length_cons, refill, hb, State.readShifts_cons]
    exact refill_of_bytes bs _ ⟨rest, hd.symm⟩

/-- `refill_of_bytes` with the count as the record's class gives it. -/
theorem refill_eq_of_bytes {n : Nat} {bs : List Byte} {s : State} (hn : bs.length = n) (h : bs <+: s.source.drop s.pos) :
    refill n s = { s.readShifts bs with micro := .boundary } := hn ▸ refill_of_bytes bs s h

/-- Too few bytes: those that are left are read, and then TruncatedStream is raised. -/
theorem refill_short : ∀ (n : Nat) (s : State), (s.source.drop s.pos).length < n →
    refill n s = (s.readShifts (s.source.drop s.pos)).raise .truncatedStream
  | n + 1, s, h => by
    cases hd : s.source.drop s.pos with
    | nil =>
      have : s.nextByte? = none := State.nextByte?_eq_none.mpr (by simpa using hd)
      rw [refill, this, State.readShifts_nil]
    | cons b bs =>
      obtain ⟨hb, hd'⟩ := nextByte?_of_drop hd
      rw [refill, hb, State.readShifts_cons, ← hd']
      refine refill_short n _ ?_
      rw [hd'] ; rw [hd] at h; simpa using h

/-- Refill does not look at the program point it starts from. -/
theorem refill_micro : ∀ (n : Nat) (m : Micro) (s : State), refill n { s with micro := m } = refill n s
  | 0, _, _ => rfl
  | n + 1, m, s => by
    rw [refill, refill]
    cases h : s.nextByte? with
    | none => rw [show State.nextByte? { s with micro := m } = none from h]; rfl
    | some b =>
      rw [show State.nextByte? { s with micro := m } = some b from h]
      exact refill_micro n m (s.readShift b)

/-- What a refill leaves alone. -/
theorem refill_frame : ∀ (n : Nat) (s : State),
    (refill n s).pixelCount = s.pixelCount ∧ (refill n s).prev = s.prev ∧ (refill n s).cache = s.cache ∧
    (refill n s).header = s.header ∧ (refill n s).hdrValid = s.hdrValid ∧ (refill n s).source = s.source ∧
    (refill n s).sink = s.sink ∧ (refill n s).schedule = s.schedule ∧ (refill n s).policy = s.policy
  | 0, s => by simp [refill]
  | n + 1, s => by
    rw [refill]
    split
    · simp
    · next b _ => simpa using refill_frame n (s.readShift b)

/-! ### Commits (R79, R93, R94) -/

@[simp] theorem State.commits_zero (p : Pixel) (cls : TagClass) (s : State) : s.commits 0 p cls = s := rfl
theorem State.commits_succ (n : Nat) (p : Pixel) (cls : TagClass) (s : State) :
    s.commits (n + 1) p cls = (s.commit p cls).commits n p cls := rfl

/-- R94: the inserts of `n + 1` commits of one pixel are one insert. -/
theorem State.commits_eq : ∀ (n : Nat) (p : Pixel) (cls : TagClass) (s : State),
    s.commits (n + 1) p cls =
      { s with
        sink := s.sink ++ List.replicate (n + 1) p
        pixelCount := s.pixelCount + BitVec.ofNat 64 (n + 1)
        cache := if inserts s.policy cls then cacheInsert p s.cache else s.cache
        prev := p }
  | 0, p, cls, s => rfl
  | n + 1, p, cls, s => by
    rw [State.commits_succ, State.commits_eq n]
    simp only [State.commit, State.mk.injEq, true_and, and_true]
    refine ⟨?_, ?_, ?_⟩
    · rw [BitVec.add_assoc, Nat.add_comm (n + 1) 1, BitVec.ofNat_add (x := 1)]; rfl
    · split
      · exact cacheInsert_twice p s.cache
      · rfl
    · rw [List.replicate_succ (n := n + 1), List.append_assoc, List.singleton_append]

/-- Once a handler has offered its pixel, the rest of its record is its commits and its refill. -/
theorem State.finishRecord_offer (p : Pixel) (cls : TagClass) (more : Nat) (s : State) :
    (s.offer p cls more).finishRecord = refill cls.operandBytes (s.commits (more + 1) p cls) := by
  have : (s.offer p cls more).commits (more + 1) p cls = { s.commits (more + 1) p cls with micro := .emit ⟨p, cls, more⟩ } := by
    rw [State.commits_eq, State.commits_eq]; rfl
  rw [State.finishRecord, State.offer_micro]
  simp only
  rw [this, refill_micro]

@[simp] theorem State.finishRecord_raise (e : ErrCode) (s : State) : (s.raise e).finishRecord = s.raise e := rfl

end Sys2Proof.Machine
end

