-- ==== Sys2Proof/Laws/Header.lean ====
section
/-! SUPPORT. The header phase and the priming against a known list of bytes (R66, R74). -/

namespace Sys2Proof.Machine

/-- R66: a header byte before the channels byte is stored and nothing is checked. -/
theorem headerByte_early {k : Nat} (b : Byte) (s : State) (hk : k < 12) :
    headerByte k b s =
      { s.consume with header := s.header.setIfInBounds k b, micro := .header (k + 1) } := by
  unfold headerByte
  simp only
  rw [if_neg (by omega), if_neg (by omega)]

/-- One header byte of a source that has one. -/
theorem headerBytes_cons {s : State} {b : Byte} {bs : List Byte} {n k : Nat} (hm : s.micro = .header k)
    (h : s.source.drop s.pos = b :: bs) : headerBytes (n + 1) s = headerBytes n (headerByte k b s) := by
  rw [headerBytes, hm]
  simp only [(nextByte?_of_drop h).1]

/-- The header phase at the end of the source (R73). -/
theorem headerBytes_short {s : State} {k n : Nat} (hm : s.micro = .header k) (h : s.source.drop s.pos = []) :
    headerBytes (n + 1) s = s.raise .truncatedStream := by
  have : s.nextByte? = none := State.nextByte?_eq_none.mpr (by simpa using h)
  rw [headerBytes, hm]
  simp only [this]

/-- A run of header bytes before the channels byte: each is stored at its offset, and the others stay. -/
theorem headerBytes_prefix : ∀ (bs : List Byte) (k n : Nat) (s : State) (rest : List Byte), s.micro = .header k →
    s.source.drop s.pos = bs ++ rest → k + bs.length ≤ 12 →
    ∃ t : State, headerBytes (bs.length + n) s = headerBytes n t ∧
      t = { s with
        header := t.header, micro := .header (k + bs.length), pos := s.pos + bs.length
        bytesConsumed := s.bytesConsumed + BitVec.ofNat 64 bs.length } ∧
      (∀ j (h : j < 14), t.header[j] =
        if h' : k ≤ j ∧ j - k < bs.length then bs[j - k]'h'.2 else s.header[j])
  | [], k, n, s, rest, hm, _, _ => ⟨s, by simp, by cases s; simp_all, by simp⟩
  | b :: bs, k, n, s, rest, hm, hd, hl => by
    rw [List.length_cons] at hl
    have hk : k < 12 := by omega
    obtain ⟨t, h1, h2, h3⟩ := headerBytes_prefix bs (k + 1) n (headerByte k b s) rest
      (by rw [headerByte_early b s hk]) (by rw [headerByte_early b s hk]; simpa using (nextByte?_of_drop hd).2) (by omega)
    refine ⟨t, ?_, ?_, ?_⟩
    · rw [← h1, List.length_cons, show bs.length + 1 + n = bs.length + n + 1 by omega, headerBytes_cons hm hd]
    · rw [h2, headerByte_early b s hk]
      simp [State.consume]
      refine ⟨?_, by omega, by omega⟩
      rw [BitVec.add_assoc, Nat.add_comm bs.length, BitVec.ofNat_add]
    · intro j hj
      rw [h3 j hj, headerByte_early b s hk]
      simp only [List.length_cons]
      by_cases hjk : j = k
      · subst hjk
        rw [dif_neg (by omega), dif_pos (by omega)]
        simp
      · by_cases hin : k + 1 ≤ j ∧ j - (k + 1) < bs.length
        · rw [dif_pos hin, dif_pos (by omega), List.getElem_cons, dif_neg (by omega)]
          congr 1
        · rw [dif_neg hin, dif_neg (by omega)]
          simp [Ne.symm hjk]

/-- One priming byte of a source that has one. -/
theorem primeBytes_cons {s : State} {b : Byte} {bs : List Byte} {n k : Nat} (hm : s.micro = .prime k)
    (h : s.source.drop s.pos = b :: bs) : primeBytes (n + 1) s = primeBytes n (primeByte k b s) := by
  rw [primeBytes, hm]
  simp only [(nextByte?_of_drop h).1]

/-- A run of priming bytes: each is shifted in, and the eighth ends the priming. -/
theorem primeBytes_prefix : ∀ (bs : List Byte) (k n : Nat) (s : State) (rest : List Byte), s.micro = .prime k →
    s.source.drop s.pos = bs ++ rest → k + bs.length ≤ 8 →
    primeBytes (bs.length + n) s = primeBytes n { s.readShifts bs with
      micro := if k + bs.length = 8 ∧ bs ≠ [] then .boundary else .prime (k + bs.length) }
  | [], k, n, s, rest, hm, hd, hl => by simp [State.readShifts_nil, ← hm]
  | b :: bs, k, n, s, rest, hm, hd, hl => by
    rw [List.length_cons] at hl
    rw [List.length_cons, show bs.length + 1 + n = bs.length + n + 1 by omega, primeBytes_cons hm hd,
      State.readShifts_cons]
    by_cases h7 : k = 7
    · subst h7
      obtain rfl : bs = [] := List.eq_nil_of_length_eq_zero (by omega)
      simp [primeByte, State.readShifts_nil]
    · rw [primeBytes_prefix bs (k + 1) n (primeByte k b s) rest (by simp [primeByte, h7])
        (by simpa [primeByte] using (nextByte?_of_drop hd).2) (by omega)]
      congr 1
      simp [primeByte, State.readShifts]
      by_cases hb : bs = []
      · subst hb; simp; omega
      · simp [hb]
        rw [show k + 1 + bs.length = k + (bs.length + 1) by omega]

end Sys2Proof.Machine
end

