-- ==== Sys2Proof/Laws/Serve.lean ====
section
/-! SUPPORT. A whole operation is a chain of served primitives, and every clock edge is one primitive, a wait, or an end
of source: the two levels of the model tell one story (R86, R114). -/

namespace Sys2Proof.Machine

/-! ### One port edge -/

/-- R31: what one edge of a read does. -/
theorem readEdge_cases (e : Edge) (k : Byte → State → State) (s : State) :
    (∃ b, s.nextByte? = some b ∧ e.inValid = true ∧ readEdge e k s = k b s) ∨
    (e.inEof = true ∧ (e.inValid = true → s.nextByte? = none) ∧ readEdge e k s = s.raise .truncatedStream) ∨
    (e.inEof = false ∧ (e.inValid = true → s.nextByte? = none) ∧ readEdge e k s = s) := by
  unfold readEdge
  cases e.inValid <;> cases s.nextByte? <;> cases e.inEof <;> simp

/-- A prompt host's edge of a read: the next byte, or the end of the source. -/
theorem readEdge_prompt (k : Byte → State → State) (s : State) :
    readEdge (promptEdge s) k s =
      match s.nextByte? with
      | none => s.raise .truncatedStream
      | some b => k b s := by
  unfold readEdge
  cases h : s.nextByte? with
  | none => simp [promptEdge, State.nextByte?_eq_none.mp h]
  | some b => simp [promptEdge]

theorem serve_idle {s : State} (h : s.micro = .idle) : serve s = s := by simp [serve, portEdge, h]

theorem serve_header {s : State} {k : Nat} (h : s.micro = .header k) :
    serve s = match s.nextByte? with | none => s.raise .truncatedStream | some b => headerByte k b s := by
  simp only [serve, portEdge, h, readEdge_prompt]

theorem serve_prime {s : State} {k : Nat} (h : s.micro = .prime k) :
    serve s = match s.nextByte? with | none => s.raise .truncatedStream | some b => primeByte k b s := by
  simp only [serve, portEdge, h, readEdge_prompt]

theorem serve_boundary {s : State} (h : s.micro = .boundary) :
    serve s = if s.window = marker then handleEndMarker s
      else match s.nextByte? with | none => s.raise .truncatedStream | some b => tagByte b s := by
  simp only [serve, portEdge, h, readEdge_prompt]

theorem serve_emit {s : State} {e : Emission} (h : s.micro = .emit e) : serve s = acceptPixel e s := by
  simp [serve, portEdge, h, promptEdge]

theorem serve_refill {s : State} {n : Nat} (h : s.micro = .refill n) :
    serve s = match s.nextByte? with | none => s.raise .truncatedStream | some b => refillByte n b s := by
  simp only [serve, portEdge, h, readEdge_prompt]

/-- Every edge of a decode in progress is a wait, the served primitive, or the end of the source at a read. -/
theorem portEdge_cases (e : Edge) (s : State) :
    portEdge e s = s ∨ portEdge e s = serve s ∨
    (e.inEof = true ∧ s.micro ≠ .idle ∧ (∀ em, s.micro ≠ .emit em) ∧ portEdge e s = s.raise .truncatedStream) := by
  have read : ∀ k, s.micro ≠ .idle → (∀ em, s.micro ≠ .emit em) → portEdge e s = readEdge e k s →
      serve s = (match s.nextByte? with | none => s.raise .truncatedStream | some b => k b s) →
      portEdge e s = s ∨ portEdge e s = serve s ∨
        (e.inEof = true ∧ s.micro ≠ .idle ∧ (∀ em, s.micro ≠ .emit em) ∧ portEdge e s = s.raise .truncatedStream) := by
    intro k hi hem hp hs
    rw [hp, hs]
    obtain ⟨b, hb, -, h⟩ | ⟨he, -, h⟩ | ⟨-, -, h⟩ := readEdge_cases e k s
    · rw [h, hb]; exact .inr (.inl rfl)
    · exact .inr (.inr ⟨he, hi, hem, h⟩)
    · exact .inl h
  cases h : s.micro with
  | idle => exact .inl (by simp [portEdge, h])
  | header k =>
    exact h ▸ read (headerByte k) (by simp [h]) (by simp [h]) (by simp [portEdge, h]) (serve_header h)
  | prime k => exact h ▸ read (primeByte k) (by simp [h]) (by simp [h]) (by simp [portEdge, h]) (serve_prime h)
  | refill n => exact h ▸ read (refillByte n) (by simp [h]) (by simp [h]) (by simp [portEdge, h]) (serve_refill h)
  | emit em =>
    cases ho : e.outReady with
    | true => exact .inr (.inl (by simp [portEdge, h, ho, serve_emit h]))
    | false => exact .inl (by simp [portEdge, h, ho])
  | boundary =>
    by_cases hm : s.window = marker
    · exact .inr (.inl (by simp [portEdge, h, hm, serve_boundary h]))
    · exact h ▸ read tagByte (by simp [h]) (by simp [h]) (by simp [portEdge, h, hm]) (by simp [serve_boundary h, hm])

/-! ### Whole operations -/

/-- `exec` is the handler and the rest of its record. -/
theorem exec_eq (i : Instr) (s : State) : exec i s = .next (handle i s).finishRecord := by cases i <;> rfl

/-- What a handler does: a raise, an offer, or the end of the decode. -/
theorem handle_cases (i : Instr) (s : State) :
    (∃ idx, i = .cachedIndex idx ∧ cacheLookup idx s.cache = none ∧ handle i s = s.raise .invalidCacheReference) ∨
    (∃ p cls more, i ≠ .endMarker ∧ handle i s = s.offer p cls more ∧ (more ≠ 0 → cls = .run) ∧
      (i.wellFormed = true → more < 62) ∧
      (cls = .cachedIndex → ∃ idx, i = .cachedIndex idx ∧ cacheLookup idx s.cache = some p)) ∨
    (i = .endMarker ∧ handle i s = handleEndMarker s) := by
  cases i with
  | literalRGBA r g b a =>
    exact .inr (.inl ⟨_, _, 0, by simp, rfl, by simp, fun _ => by omega, fun h => nomatch h⟩)
  | literalRGB r g b =>
    exact .inr (.inl ⟨_, _, 0, by simp, rfl, by simp, fun _ => by omega, fun h => nomatch h⟩)
  | cachedIndex idx =>
    cases h : cacheLookup idx s.cache with
    | none => exact .inl ⟨idx, rfl, h, by simp [handle, handleCachedIndex, h]⟩
    | some p =>
      exact .inr (.inl ⟨p, .cachedIndex, 0, by simp, by simp [handle, handleCachedIndex, h], by simp, fun _ => by omega,
        fun _ => ⟨idx, rfl, h⟩⟩)
  | smallDelta dr dg db =>
    exact .inr (.inl ⟨_, _, 0, by simp, rfl, by simp, fun _ => by omega, fun h => nomatch h⟩)
  | lumaDelta dg drdg dbdg =>
    exact .inr (.inl ⟨_, _, 0, by simp, rfl, by simp, fun _ => by omega, fun h => nomatch h⟩)
  | run count =>
    refine .inr (.inl ⟨_, _, count - 1, by simp, rfl, by simp, fun h => ?_, fun h => nomatch h⟩)
    simp only [Instr.wellFormed, decide_eq_true_eq] at h
    omega
  | endMarker => exact .inr (.inr ⟨rfl, rfl⟩)

theorem headerByte_micro (k : Nat) (b : Byte) (s : State) (hk : k < 14) :
    (headerByte k b s).micro = .header (k + 1) ∧ k < 13 ∨ (headerByte k b s).micro = .idle ∨
      (headerByte k b s).micro = .prime 0 := by
  unfold headerByte
  simp only
  split
  · subst k; split <;> simp
  · split
    · split <;> simp
    · exact .inl ⟨rfl, by omega⟩

theorem headerBytes_serves : ∀ (n k : Nat) (s : State), s.micro = .header k → k + n + 1 = 14 →
    ∃ m, 1 ≤ m ∧ headerBytes (n + 1) s = serve^[m] s
  | n, k, s, h, hk => by
    rw [headerBytes, h]
    simp only
    have hs := serve_header h
    cases hb : s.nextByte? with
    | none => exact ⟨1, le_refl 1, by rw [hb] at hs; simp [hs]⟩
    | some b =>
      rw [hb] at hs
      simp only at hs ⊢
      rw [← hs]
      obtain ⟨hm, hlt⟩ | hm | hm := headerByte_micro k b s (by omega)
      · obtain ⟨n, rfl⟩ : ∃ n', n = n' + 1 := ⟨n - 1, by omega⟩
        obtain ⟨m, -, hm'⟩ := headerBytes_serves n (k + 1) (serve s) (by rw [hs, hm]) (by omega)
        exact ⟨m + 1, by omega, by rw [hm', Function.iterate_succ_apply]⟩
      · refine ⟨1, le_refl 1, ?_⟩
        cases n <;> simp [headerBytes, hs, hm]
      · refine ⟨1, le_refl 1, ?_⟩
        cases n <;> simp [headerBytes, hs, hm]

theorem primeBytes_serves : ∀ (n k : Nat) (s : State), s.micro = .prime k → k + n + 1 = 8 →
    ∃ m, 1 ≤ m ∧ primeBytes (n + 1) s = serve^[m] s
  | n, k, s, h, hk => by
    rw [primeBytes, h]
    simp only
    have hs := serve_prime h
    cases hb : s.nextByte? with
    | none => exact ⟨1, le_refl 1, by rw [hb] at hs; simp [hs]⟩
    | some b =>
      rw [hb] at hs
      simp only at hs ⊢
      rw [← hs]
      by_cases h7 : k = 7
      · obtain rfl : n = 0 := by omega
        exact ⟨1, le_refl 1, rfl⟩
      · obtain ⟨n, rfl⟩ : ∃ n', n = n' + 1 := ⟨n - 1, by omega⟩
        obtain ⟨m, -, hm'⟩ := primeBytes_serves n (k + 1) (serve s) (by rw [hs]; simp [primeByte, h7]) (by omega)
        exact ⟨m + 1, by omega, by rw [hm', Function.iterate_succ_apply]⟩

theorem refill_serves : ∀ (n : Nat) (s : State), s.micro = .refill n → ∃ m, 1 ≤ m ∧ refill (n + 1) s = serve^[m] s
  | n, s, h => by
    have hs := serve_refill h
    rw [refill]
    cases hb : s.nextByte? with
    | none => exact ⟨1, le_refl 1, by rw [hb] at hs; simp [hs]⟩
    | some b =>
      rw [hb] at hs
      simp only at hs ⊢
      cases n with
      | zero => exact ⟨1, le_refl 1, by simp [hs, refill, refillByte, afterPixels]⟩
      | succ n =>
        obtain ⟨m, -, hm⟩ := refill_serves n (serve s) (by rw [hs]; rfl)
        refine ⟨m + 1, by omega, ?_⟩
        rw [Function.iterate_succ_apply, ← hm, hs]
        exact (refill_micro _ _ _).symm

theorem emit_serves : ∀ (more : Nat) (p : Pixel) (cls : TagClass) (s : State), s.micro = .emit ⟨p, cls, more⟩ →
    ∃ m, 1 ≤ m ∧ refill cls.operandBytes (s.commits (more + 1) p cls) = serve^[m] s
  | 0, p, cls, s, h => by
    have hs := serve_emit h
    simp only [acceptPixel] at hs
    rw [State.commits_succ, State.commits_zero]
    cases hn : cls.operandBytes with
    | zero => exact ⟨1, le_refl 1, by simp [hs, hn, refill, afterPixels]⟩
    | succ n =>
      obtain ⟨m, -, hm⟩ := refill_serves n (serve s) (by rw [hs, hn]; rfl)
      refine ⟨m + 1, by omega, ?_⟩
      rw [Function.iterate_succ_apply, ← hm, hs]
      exact (refill_micro _ _ _).symm
  | more + 1, p, cls, s, h => by
    have hs := serve_emit h
    simp only [acceptPixel] at hs
    obtain ⟨m, -, hm⟩ := emit_serves more p cls (serve s) (by rw [hs])
    refine ⟨m + 1, by omega, ?_⟩
    rw [Function.iterate_succ_apply, ← hm, hs, State.commits_succ]
    simp only [State.commits_eq]
    rw [← refill_micro _ (.emit ⟨p, cls, more⟩)]

/-- The rest of a record is a chain of served primitives. -/
theorem finishRecord_serves (s : State) : ∃ m, s.finishRecord = serve^[m] s ∧
    ((∃ e, s.micro = .emit e) ∨ (∃ n, s.micro = .refill n) → 1 ≤ m) := by
  cases h : s.micro with
  | emit e =>
    obtain ⟨m, h1, hm⟩ := emit_serves e.more e.pixel e.cls s h
    exact ⟨m, by rw [State.finishRecord, h]; exact hm, fun _ => h1⟩
  | refill n =>
    obtain ⟨m, h1, hm⟩ := refill_serves n s h
    exact ⟨m, by rw [State.finishRecord, h]; exact hm, fun _ => h1⟩
  | idle => exact ⟨0, by simp [State.finishRecord, h], by simp⟩
  | header k => exact ⟨0, by simp [State.finishRecord, h], by simp⟩
  | prime k => exact ⟨0, by simp [State.finishRecord, h], by simp⟩
  | boundary => exact ⟨0, by simp [State.finishRecord, h], by simp⟩

/-- The record at the front of a window that does not hold the marker is no end marker. -/
theorem decodeRecord_ne_endMarker (t b1 b2 b3 b4 : Byte) : decodeRecord t b1 b2 b3 b4 ≠ .endMarker := by
  unfold decodeRecord; split <;> simp

theorem decodeWindow_eq_endMarker {w : Window} : decodeWindow w = .endMarker ↔ w = marker := by
  unfold decodeWindow
  split
  · simp_all
  · simp_all [decodeRecord_ne_endMarker]

/-- R75: from an opcode boundary, the marker check and a record are a chain of served primitives. -/
theorem streamStep_serves {s : State} (h : s.micro = .boundary) :
    ∃ m, 1 ≤ m ∧ streamStep s = .next (serve^[m] s) := by
  have hs := serve_boundary h
  unfold streamStep
  by_cases hm : s.window = marker
  · exact ⟨1, le_refl 1, by simp [hm] at hs ⊢; rw [hs]; rfl⟩
  · simp only [hm, if_false] at hs ⊢
    cases hb : s.nextByte? with
    | none => exact ⟨1, le_refl 1, by rw [hb] at hs; simp [hs]⟩
    | some b =>
      rw [hb] at hs
      simp only at hs ⊢
      obtain ⟨m, hfin, -⟩ := finishRecord_serves (serve s)
      refine ⟨m + 1, by omega, ?_⟩
      rw [exec_eq, Function.iterate_succ_apply, ← hfin, hs, tagByte]

/-- Whatever the program point, a whole operation is a chain of served primitives; where the program point fits its
phase, the chain is not empty. -/
theorem operate_serves {s : State} (hb : s.busy = true) :
    ∃ m, operate s = .next (serve^[m] s) ∧ (s.pointFits = true → 1 ≤ m) := by
  unfold operate
  rw [if_pos hb]
  cases h : s.micro with
  | idle => exact ⟨1, by simp [serve_idle h], fun _ => le_refl 1⟩
  | header k =>
    by_cases hk : k < 14
    · obtain ⟨n, hn⟩ : ∃ n, 14 - k = n + 1 := ⟨13 - k, by omega⟩
      obtain ⟨m, h1, hm⟩ := headerBytes_serves n k s h (by omega)
      exact ⟨m, by simp [hn, hm], fun _ => h1⟩
    · refine ⟨0, by simp [show 14 - k = 0 by omega, headerBytes], fun hp => ?_⟩
      unfold State.pointFits at hp; rw [h] at hp
      revert hp; split <;> simp_all
  | prime k =>
    by_cases hk : k < 8
    · obtain ⟨n, hn⟩ : ∃ n, 8 - k = n + 1 := ⟨7 - k, by omega⟩
      obtain ⟨m, h1, hm⟩ := primeBytes_serves n k s h (by omega)
      exact ⟨m, by simp [hn, hm], fun _ => h1⟩
    · refine ⟨0, by simp [show 8 - k = 0 by omega, primeBytes], fun hp => ?_⟩
      unfold State.pointFits at hp; rw [h] at hp
      revert hp; split <;> simp_all
  | boundary =>
    obtain ⟨m, h1, hm⟩ := streamStep_serves h
    exact ⟨m, hm, fun _ => h1⟩
  | emit e =>
    obtain ⟨m, hm, h1⟩ := finishRecord_serves s
    exact ⟨m, by simp [hm], fun _ => h1 (.inl ⟨e, h⟩)⟩
  | refill n =>
    obtain ⟨m, hm, h1⟩ := finishRecord_serves s
    exact ⟨m, by simp [hm], fun _ => h1 (.inr ⟨n, h⟩)⟩

/-- Where no decode is in progress an operation leaves the state alone. -/
theorem operate_quiescent {s : State} (h : s.quiescent) : operate s = .next s := by
  simp [operate, show s.busy = false from h]

/-- What a step can do: a reset, a new decode, a wait, one served primitive, the end of the source at a read, or, with no
edge scheduled, a chain of served primitives. -/
theorem step_cases {s t : State} (h : step s = .next t) :
    (∃ e es, s.schedule = e :: es ∧
      ((e.rst = true ∧ t = State.hardReset { s with schedule := es }) ∨
       (e.rst = false ∧ s.busy = false ∧ (∃ source, e.start = some source ∧
          t = State.begin source { s with schedule := es })) ∨
       (e.rst = false ∧ (s.busy = true ∨ e.start = none) ∧ t = { s with schedule := es }) ∨
       (e.rst = false ∧ s.busy = true ∧ t = serve { s with schedule := es }) ∨
       (e.rst = false ∧ s.busy = true ∧ e.inEof = true ∧ s.micro ≠ .idle ∧ (∀ em, s.micro ≠ .emit em) ∧
          t = State.raise .truncatedStream { s with schedule := es }))) ∨
    (s.schedule = [] ∧ ((s.busy = true ∧ ∃ m, t = serve^[m] s) ∨ (s.busy = false ∧ t = s))) := by
  unfold step at h
  cases hs : s.schedule with
  | cons e es =>
    rw [hs] at h
    simp only [Host.Outcome.next.injEq] at h
    refine .inl ⟨e, es, rfl, ?_⟩
    subst h
    unfold clockEdge
    cases hr : e.rst with
    | true => exact .inl ⟨rfl, by simp⟩
    | false =>
      refine .inr ?_
      cases hb : s.busy with
      | false =>
        have hb' : State.busy { s with schedule := es } = false := hb
        cases he : e.start with
        | none => exact .inr (.inl ⟨rfl, .inr rfl, by simp [hb']⟩)
        | some source => exact .inl ⟨rfl, rfl, source, rfl, by simp [hb']⟩
      | true =>
        have hb' : State.busy { s with schedule := es } = true := hb
        rw [if_neg (by simp), if_pos hb']
        obtain hp | hp | ⟨h1, h2, h3, hp⟩ := portEdge_cases e { s with schedule := es }
        · exact .inr (.inl ⟨rfl, .inl rfl, hp⟩)
        · exact .inr (.inr (.inl ⟨rfl, rfl, hp⟩))
        · exact .inr (.inr (.inr ⟨rfl, rfl, h1, h2, h3, hp⟩))
  | nil =>
    rw [hs] at h
    refine .inr ⟨rfl, ?_⟩
    cases hb : s.busy with
    | true =>
      obtain ⟨m, hm, -⟩ := operate_serves hb
      simp only [hm, Host.Outcome.next.injEq] at h
      exact .inl ⟨rfl, m, h.symm⟩
    | false =>
      simp only [operate_quiescent hb, Host.Outcome.next.injEq] at h
      exact .inr ⟨rfl, h.symm⟩

/-- A property that every served primitive keeps is kept by a chain of them. -/
theorem serve_iterate_keeps {P : State → Prop} (hP : ∀ s, P s → P (serve s)) : ∀ (m : Nat) (s : State), P s → P (serve^[m] s)
  | 0, _, h => h
  | m + 1, s, h => by
    rw [Function.iterate_succ_apply]
    exact serve_iterate_keeps hP m (serve s) (hP s h)

/-- What one served primitive can do. -/
theorem serve_cases (s : State) :
    (serve s = s ∧ s.micro = .idle) ∨
    (serve s = s.raise .truncatedStream ∧ s.nextByte? = none) ∨
    (∃ k b, s.micro = .header k ∧ s.nextByte? = some b ∧ serve s = headerByte k b s) ∨
    (∃ k b, s.micro = .prime k ∧ s.nextByte? = some b ∧ serve s = primeByte k b s) ∨
    (s.micro = .boundary ∧ s.window = marker ∧ serve s = handleEndMarker s) ∨
    (∃ b, s.micro = .boundary ∧ s.window ≠ marker ∧ s.nextByte? = some b ∧ serve s = tagByte b s) ∨
    (∃ e, s.micro = .emit e ∧ serve s = acceptPixel e s) ∨
    (∃ n b, s.micro = .refill n ∧ s.nextByte? = some b ∧ serve s = refillByte n b s) := by
  cases h : s.micro with
  | idle => exact .inl ⟨serve_idle h, rfl⟩
  | header k =>
    rw [serve_header h]
    cases hb : s.nextByte? with
    | none => exact .inr (.inl ⟨rfl, rfl⟩)
    | some b => exact .inr (.inr (.inl ⟨k, b, rfl, rfl, rfl⟩))
  | prime k =>
    rw [serve_prime h]
    cases hb : s.nextByte? with
    | none => exact .inr (.inl ⟨rfl, rfl⟩)
    | some b => exact .inr (.inr (.inr (.inl ⟨k, b, rfl, rfl, rfl⟩)))
  | boundary =>
    rw [serve_boundary h]
    by_cases hm : s.window = marker
    · exact .inr (.inr (.inr (.inr (.inl ⟨rfl, hm, by simp [hm]⟩))))
    · cases hb : s.nextByte? with
      | none => exact .inr (.inl ⟨by simp [hm], rfl⟩)
      | some b => exact .inr (.inr (.inr (.inr (.inr (.inl ⟨b, rfl, hm, rfl, by simp [hm]⟩)))))
  | emit e => exact .inr (.inr (.inr (.inr (.inr (.inr (.inl ⟨e, rfl, serve_emit h⟩))))))
  | refill n =>
    rw [serve_refill h]
    cases hb : s.nextByte? with
    | none => exact .inr (.inl ⟨rfl, rfl⟩)
    | some b => exact .inr (.inr (.inr (.inr (.inr (.inr (.inr ⟨n, b, rfl, rfl, rfl⟩))))))

end Sys2Proof.Machine
end

