-- ==== Sys2Proof/Laws/Inv.lean ====
section
/-! SUPPORT. What each primitive does to the invariant, and what the program point says in each phase (R27). -/

namespace Sys2Proof.Machine

theorem State.busy_iff {s : State} : s.busy = true ↔ s.phase = .awaitingHeader ∨ s.phase = .streaming := by
  simp [State.busy]

theorem State.quiescent_iff {s : State} : s.quiescent ↔ s.phase = .idle ∨ s.phase = .done ∨ s.phase = .error := by
  cases h : s.phase <;> simp [State.quiescent, State.busy, h]

/-- R27: the program points of STREAMING. -/
theorem State.Inv.streaming {s : State} (h : s.Inv) (hp : s.phase = .streaming) :
    (∃ k, s.micro = .prime k ∧ k < 8 ∧ s.pos = 14 + k) ∨
    (22 ≤ s.pos ∧ (s.micro = .boundary ∨
      (∃ e, s.micro = .emit e ∧ e.more < 62 ∧ (e.more ≠ 0 → e.cls = .run)) ∨
      ∃ n, s.micro = .refill n ∧ n < 4)) := by
  have := h.point
  unfold State.pointFits at this
  rw [hp] at this
  cases hm : s.micro <;> rw [hm] at this <;> simp at this
  · exact .inl ⟨_, rfl, this⟩
  · exact .inr ⟨this, .inl rfl⟩
  · exact .inr ⟨this.1, .inr (.inl ⟨_, rfl, this.2.1, fun hh => this.2.2.resolve_left hh⟩)⟩
  · exact .inr ⟨this.1, .inr (.inr ⟨_, rfl, this.2⟩)⟩

/-- R27: the program points of AWAITING_HEADER. -/
theorem State.Inv.awaiting {s : State} (h : s.Inv) (hp : s.phase = .awaitingHeader) :
    ∃ k, s.micro = .header k ∧ k < 14 ∧ s.pos = k := by
  have := h.point
  unfold State.pointFits at this
  rw [hp] at this
  cases hm : s.micro <;> rw [hm] at this <;> simp at this
  exact ⟨_, rfl, this⟩

/-- R27: where no decode is in progress there is nothing to serve. -/
theorem State.Inv.serve_quiescent {s : State} (h : s.Inv) (hq : s.quiescent) : serve s = s := by
  have hm : s.micro = .idle := by
    have := h.point
    unfold State.pointFits at this
    rcases State.quiescent_iff.mp hq with h | h | h <;> rw [h] at this <;> revert this <;> cases s.micro <;> simp
  exact serve_idle hm

/-- R16: no error is recorded outside the ERROR phase. -/
theorem State.Inv.noError {s : State} (h : s.Inv) (hp : s.phase ≠ .error) : s.errCode = .none := by
  by_contra hh
  exact hp (h.errors.mp hh)

/-- R100: error entry. -/
theorem State.Inv.raise {s : State} {e : ErrCode} (h : s.Inv) (he : e ≠ .none) (hp : s.phase ≠ .idle) :
    (s.raise e).Inv where
  cache := h.cache
  counted := h.counted
  within := h.within
  errors := by simp [he]
  point := by simp [State.pointFits]
  headerFlag := by simp
  headerValid := h.headerValid
  channelsFirst := by simp
  headerRead := h.headerRead
  windowRead := h.windowRead
  doneAtMarker := by simp
  pixels := fun _ => h.pixels hp
  previous := fun _ => h.previous hp

/-- R39: the window after a byte has been shifted in. -/
theorem State.Inv.windowRead_readShift {s : State} {b : Byte} (h : s.Inv) (hb : s.nextByte? = some b) (k : Fin 8)
    (hk : 22 ≤ s.pos + 1 + k.val) : s.source[s.pos + 1 + k.val - 8]? = some (shift b s.window)[k] := by
  by_cases h7 : k = 7
  · subst h7
    exact hb
  · have hk7 : k.val < 7 := by
      have : k.val ≠ 7 := fun hh => h7 (Fin.ext hh)
      omega
    have := h.windowRead ⟨k.val + 1, by omega⟩ (by simp only; omega)
    rw [show s.pos + 1 + k.val - 8 = s.pos + (k.val + 1) - 8 by omega, this]
    have hs : ∀ j : Fin 7, s.window[j.val + 1] = (shift b s.window)[j.val] := by intro j; fin_cases j <;> rfl
    exact congrArg some (hs ⟨k.val, hk7⟩)

/-- R80: a byte shifted in while STREAMING. -/
theorem State.Inv.readShift {s : State} {b : Byte} {m : Micro} (h : s.Inv) (hb : s.nextByte? = some b)
    (hp : s.phase = .streaming) (hm : State.pointFits { s.readShift b with micro := m } = true) :
    State.Inv { s.readShift b with micro := m } where
  cache := h.cache
  counted := by
    have := h.counted
    simp only [State.readShift_bytesConsumed, State.readShift_pos, this, BitVec.ofNat_add]
    rfl
  within := by have := State.nextByte?_eq_some hb; simp; omega
  errors := h.errors
  point := hm
  headerFlag := h.headerFlag
  headerValid := h.headerValid
  channelsFirst := fun hm' => by simp only at hm'; subst hm'; simp [State.pointFits, hp] at hm
  headerRead := fun k hk => h.headerRead k (by
    have := k.isLt
    obtain ⟨_, -, -, h14⟩ | ⟨h22, -⟩ := h.streaming hp <;> omega)
  windowRead := h.windowRead_readShift hb
  doneAtMarker := by simp [hp]
  pixels := h.pixels
  previous := h.previous

/-- R32: a handler's pixel is on the port, or the program point moves on within the record. -/
theorem State.Inv.micro {s : State} {m : Micro} (h : s.Inv) (hp : s.phase = .streaming)
    (hm : State.pointFits { s with micro := m } = true) : State.Inv { s with micro := m } :=
  { h with point := hm, channelsFirst := fun hm' => by simp only at hm'; subst hm'; simp [State.pointFits, hp] at hm }

/-- R79: a commit. -/
theorem State.Inv.commit {s : State} {p : Pixel} {cls : TagClass} {m : Micro} (h : s.Inv) (hp : s.phase = .streaming)
    (hm : State.pointFits { s with micro := m } = true) : State.Inv { s.commit p cls with micro := m } where
  cache := Memory.wf_commit p cls h.cache
  counted := h.counted
  within := h.within
  errors := h.errors
  point := hm
  headerFlag := h.headerFlag
  headerValid := h.headerValid
  channelsFirst := fun hm' => by simp only at hm'; subst hm'; simp [State.pointFits, hp] at hm
  headerRead := h.headerRead
  windowRead := h.windowRead
  doneAtMarker := by simp [hp]
  pixels := fun hh => by simp [h.pixels hh, BitVec.ofNat_add]
  previous := fun hh => by simp

/-- R76, R81: the end of the decode. -/
theorem State.Inv.endMarker {s : State} (h : s.Inv) (hp : s.phase = .streaming) (hm : s.window = marker)
    (h22 : 22 ≤ s.pos) : (handleEndMarker s).Inv where
  cache := h.cache
  counted := h.counted
  within := h.within
  errors := by simp [handleEndMarker, h.noError (by simp [hp])]
  point := by simp [State.pointFits, handleEndMarker]
  headerFlag := by simp [handleEndMarker, h.headerFlag.1 (.inl hp)]
  headerValid := h.headerValid
  channelsFirst := by simp [handleEndMarker]
  headerRead := h.headerRead
  windowRead := h.windowRead
  doneAtMarker := fun _ => ⟨hm, h22⟩
  pixels := fun _ => h.pixels (by simp [hp])
  previous := fun _ => h.previous (by simp [hp])

/-- R66, R24: header byte `k` is stored at its offset; the bytes before it stay. -/
theorem State.Inv.headerStored {s : State} {k : Nat} {b : Byte} (h : s.Inv) (hb : s.nextByte? = some b)
    (hpos : s.pos = k) (j : Fin 14) (hj : j.val < s.pos + 1) :
    s.source[j.val]? = some (s.header.setIfInBounds k b)[j] := by
  by_cases hjk : j.val = k
  · rw [show (s.header.setIfInBounds k b)[j] = b by simp [hjk], hjk, ← hpos]
    exact hb
  · rw [show (s.header.setIfInBounds k b)[j] = s.header[j] by simp [Ne.symm hjk]]
    exact h.headerRead j (by omega)

/-- What one served primitive does to the source and the read position (R31), and to the schedule. -/
theorem serve_source (s : State) :
    (serve s).source = s.source ∧ s.pos ≤ (serve s).pos ∧ (serve s).schedule = s.schedule := by
  obtain ⟨h, -⟩ | ⟨h, -⟩ | ⟨k, b, -, -, h⟩ | ⟨k, b, -, -, h⟩ | ⟨-, -, h⟩ | ⟨b, -, -, -, h⟩ | ⟨e, -, h⟩ |
    ⟨n, b, -, -, h⟩ := serve_cases s <;> rw [h]
  · simp
  · simp
  · unfold headerByte
    simp only
    split <;> (try split) <;> (try split) <;> simp
  · simp [primeByte]
  · simp [handleEndMarker]
  · unfold tagByte
    obtain ⟨idx, -, -, he⟩ | ⟨p, cls, more, -, he, -⟩ | ⟨-, he⟩ := handle_cases (decodeWindow s.window) (s.readShift b) <;>
      rw [he] <;> simp [handleEndMarker]
  · unfold acceptPixel
    split <;> simp
  · simp [refillByte]

/-- What one served primitive does to the cache: nothing, or one insert (R37). -/
theorem serve_cache (s : State) : (serve s).cache = s.cache ∨ ∃ p, (serve s).cache = cacheInsert p s.cache := by
  have handle_cache : ∀ i (u : State), (handle i u).cache = u.cache := by
    intro i u
    obtain ⟨idx, -, -, he⟩ | ⟨p, cls, more, -, he, -⟩ | ⟨-, he⟩ := handle_cases i u <;> rw [he] <;> rfl
  obtain ⟨h, -⟩ | ⟨h, -⟩ | ⟨k, b, -, -, h⟩ | ⟨k, b, -, -, h⟩ | ⟨-, -, h⟩ | ⟨b, -, -, -, h⟩ | ⟨e, -, h⟩ |
    ⟨n, b, -, -, h⟩ := serve_cases s <;> rw [h]
  · exact .inl rfl
  · exact .inl rfl
  · refine .inl ?_
    unfold headerByte
    simp only
    split <;> (try split) <;> (try split) <;> rfl
  · exact .inl rfl
  · exact .inl rfl
  · exact .inl (by rw [tagByte, handle_cache]; rfl)
  · have : (acceptPixel e s).cache = (s.commit e.pixel e.cls).cache := by unfold acceptPixel; split <;> rfl
    rw [this, State.commit_cache]
    split
    · exact .inr ⟨_, rfl⟩
    · exact .inl rfl
  · exact .inl rfl

end Sys2Proof.Machine
end

