-- ==== Sys2Proof/Laws/PerInstr.lean ====
section
/-! SUPPORT. Facts about every instruction as syntax, one lemma per constructor.

RecordForm: a well-formed instruction encodes to one tag byte and, but for the end marker, exactly the operand bytes
the tag's class asks for (R57, R58). -/

namespace Sys2Proof.Laws.RecordForm

/-- The tag of the encoding, and the operand bytes its class asks for. -/
def Statement (i : Instr) : Prop :=
  i.wellFormed = true → ∃ t rest, encode i = t :: rest ∧ (encode i).length = i.length ∧
    (i ≠ .endMarker → rest.length = (classify t).operandBytes)

theorem literalRGBA (r g b a : Byte) : Statement (.literalRGBA r g b a) :=
  fun _ => ⟨0xFF, [r, g, b, a], rfl, rfl, fun _ => rfl⟩

theorem literalRGB (r g b : Byte) : Statement (.literalRGB r g b) :=
  fun _ => ⟨0xFE, [r, g, b], rfl, rfl, fun _ => rfl⟩

/-- R60: the tags of a CachedIndex. -/
theorem classify_cachedIndex : ∀ idx : Fin 64, classify (BitVec.ofNat 8 idx.val) = .cachedIndex := by decide

theorem cachedIndex (idx : Fin 64) : Statement (.cachedIndex idx) :=
  fun _ => ⟨_, [], rfl, rfl, fun _ => by rw [classify_cachedIndex]; rfl⟩

/-- R60: the tags of a SmallDelta, by their three stored fields. -/
theorem classify_smallDelta : ∀ fr fg fb : Fin 4,
    classify (BitVec.ofInt 8 (0x40 + (fr.val : Int) * 16 + (fg.val : Int) * 4 + (fb.val : Int))) = .smallDelta := by
  decide

theorem smallDelta (dr dg db : Int) : Statement (.smallDelta dr dg db) := by
  intro h
  simp only [Instr.wellFormed, decide_eq_true_eq] at h
  refine ⟨_, [], rfl, rfl, fun _ => ?_⟩
  have := classify_smallDelta ⟨(dr + 2).toNat, by omega⟩ ⟨(dg + 2).toNat, by omega⟩ ⟨(db + 2).toNat, by omega⟩
  simp only [Int.toNat_of_nonneg (show (0 : Int) ≤ dr + 2 by omega), Int.toNat_of_nonneg (show (0 : Int) ≤ dg + 2 by omega),
    Int.toNat_of_nonneg (show (0 : Int) ≤ db + 2 by omega)] at this
  rw [this]; rfl

/-- R60: the tags of a LumaDelta, by their stored green field. -/
theorem classify_lumaDelta : ∀ fgl : Fin 64, classify (BitVec.ofInt 8 (0x80 + (fgl.val : Int))) = .lumaDelta := by
  decide

theorem lumaDelta (dg drdg dbdg : Int) : Statement (.lumaDelta dg drdg dbdg) := by
  intro h
  simp only [Instr.wellFormed, decide_eq_true_eq] at h
  refine ⟨_, [_], rfl, rfl, fun _ => ?_⟩
  have := classify_lumaDelta ⟨(dg + 32).toNat, by omega⟩
  simp only [Int.toNat_of_nonneg (show (0 : Int) ≤ dg + 32 by omega)] at this
  rw [this]; rfl

/-- R60: the tags of a Run, by their stored field. -/
theorem classify_run : ∀ fn : Fin 62, classify (BitVec.ofInt 8 (0xC0 + (fn.val : Int))) = .run := by decide

theorem run (count : Nat) : Statement (.run count) := by
  intro h
  simp only [Instr.wellFormed, decide_eq_true_eq] at h
  refine ⟨_, [], rfl, rfl, fun _ => ?_⟩
  have := classify_run ⟨count - 1, by omega⟩
  simp only [Nat.cast_sub (show 1 ≤ count by omega), Nat.cast_one] at this
  rw [this]; rfl

theorem endMarker : Statement .endMarker :=
  fun _ => ⟨0x00, [0x00, 0x00, 0x00, 0x00, 0x00, 0x00, 0x01], rfl, rfl, fun h => absurd rfl h⟩

end Sys2Proof.Laws.RecordForm
end

