-- ==== Sys2Proof/Laws/Record.lean ====
section
/-! SUPPORT. What running an instruction can do to the pixels, the cache and the counters: said once, for all of them. -/

namespace Sys2Proof.Machine

/-- A refill never moves the read position back (R85). -/
theorem refill_pos : ∀ (n : Nat) (s : State), s.pos ≤ (refill n s).pos
  | 0, s => le_refl _
  | n + 1, s => by
    rw [refill]
    split
    · simp
    · next b _ => exact le_trans (by simp) (refill_pos n (s.readShift b))

/-- R79: which class inserts under which policy. -/
theorem inserts_iff (policy : CachePolicy) (cls : TagClass) :
    inserts policy cls = true ↔ policy = .all ∨ cls = .literalRGB ∨ cls = .literalRGBA := by
  cases policy <;> cases cls <;> simp [inserts]

/-- What a record that commits does: `more + 1` copies of one pixel are appended and counted, one insert under the
policy, the new previous pixel, and a refill that changes none of these (R79, R80, R94). -/
structure Committed (s t : State) (p : Pixel) (more : Nat) (literal : Bool) : Prop where
  sink : t.sink = s.sink ++ List.replicate (more + 1) p
  count : t.pixelCount = s.pixelCount + BitVec.ofNat 64 (more + 1)
  prev : t.prev = p
  cache : t.cache = if s.policy = .all ∨ literal = true then cacheInsert p s.cache else s.cache
  pos : s.pos ≤ t.pos
  header : t.header = s.header ∧ t.hdrValid = s.hdrValid
  host : t.source = s.source ∧ t.schedule = s.schedule ∧ t.policy = s.policy

/-- An offered pixel, finished. -/
theorem committed_offer (p : Pixel) (cls : TagClass) (more : Nat) (s : State) :
    Committed s (s.offer p cls more).finishRecord p more (decide (cls = .literalRGB ∨ cls = .literalRGBA)) := by
  rw [State.finishRecord_offer]
  obtain ⟨h1, h2, h3, h4, h5, h6, h7, h8, h9⟩ := refill_frame cls.operandBytes (s.commits (more + 1) p cls)
  have hp := refill_pos cls.operandBytes (s.commits (more + 1) p cls)
  rw [State.commits_eq] at *
  refine ⟨h7, h1, h2, h3.trans ?_, hp, ⟨h4, h5⟩, ⟨h6, h8, h9⟩⟩
  simp only [inserts_iff, decide_eq_true_eq]

/-- What an instruction can do: end the decode, fail a lookup, or commit. -/
theorem exec_cases {i : Instr} {s t : State} (h : exec i s = .next t) :
    (i = .endMarker ∧ t = handleEndMarker s) ∨
    (∃ idx, i = .cachedIndex idx ∧ cacheLookup idx s.cache = none ∧ t = s.raise .invalidCacheReference) ∨
    (commitsPixel i s = true ∧ ∃ p more, Committed s t p more (isLiteral i)) := by
  rw [exec_eq] at h
  cases h
  cases i with
  | literalRGBA r g b a => exact .inr (.inr ⟨rfl, _, _, committed_offer _ .literalRGBA 0 s⟩)
  | literalRGB r g b => exact .inr (.inr ⟨rfl, _, _, committed_offer _ .literalRGB 0 s⟩)
  | cachedIndex idx =>
    simp only [handle, handleCachedIndex, commitsPixel]
    cases hl : cacheLookup idx s.cache with
    | none => exact .inr (.inl ⟨idx, rfl, hl, rfl⟩)
    | some p => exact .inr (.inr ⟨rfl, _, _, committed_offer p .cachedIndex 0 s⟩)
  | smallDelta dr dg db => exact .inr (.inr ⟨rfl, _, _, committed_offer _ .smallDelta 0 s⟩)
  | lumaDelta dg drdg dbdg => exact .inr (.inr ⟨rfl, _, _, committed_offer _ .lumaDelta 0 s⟩)
  | run count => exact .inr (.inr ⟨rfl, _, _, committed_offer _ .run (count - 1) s⟩)
  | endMarker => exact .inl ⟨rfl, rfl⟩

end Sys2Proof.Machine
end

