-- ==== Sys2Proof/Tests/Slice0.lean ====
section
/-! SUPPORT. Small tests, one step each, and for every obligation with hypotheses a state that meets them. Expected
values are those of spec/95_test_vectors.md (its D- vectors) or are worked out by hand from the rule named. -/

namespace Sys2Proof.Tests

open Sys2Proof.Machine

/-! ### Well-formedness (R64) -/

theorem test_wf_smallDelta_red_low : (Instr.smallDelta (-3) 0 0).wellFormed = false := by decide
theorem test_wf_smallDelta_red_high : (Instr.smallDelta 2 0 0).wellFormed = false := by decide
theorem test_wf_smallDelta_green : (Instr.smallDelta 0 2 0).wellFormed = false := by decide
theorem test_wf_smallDelta_blue : (Instr.smallDelta 0 0 (-3)).wellFormed = false := by decide
theorem test_wf_lumaDelta_green_low : (Instr.lumaDelta (-33) 0 0).wellFormed = false := by decide
theorem test_wf_lumaDelta_green_high : (Instr.lumaDelta 32 0 0).wellFormed = false := by decide
theorem test_wf_lumaDelta_red : (Instr.lumaDelta 0 8 0).wellFormed = false := by decide
theorem test_wf_lumaDelta_blue : (Instr.lumaDelta 0 0 (-9)).wellFormed = false := by decide
theorem test_wf_run_zero : (Instr.run 0).wellFormed = false := by decide
theorem test_wf_run_63 : (Instr.run 63).wellFormed = false := by decide
theorem test_wf_bounds :
    (Instr.smallDelta (-2) 1 1).wellFormed = true ∧ (Instr.lumaDelta (-32) 7 (-8)).wellFormed = true ∧
    (Instr.run 1).wellFormed = true ∧ (Instr.run 62).wellFormed = true := by decide

/-! ### Decoding: words from the formats of R57 and the table of 95_test_vectors.md 2.1 -/

theorem test_decode_literalRGBA : decodeTableWord 40 0xFF030201FF = some (.literalRGBA 1 2 3 0xFF) := by decide
theorem test_decode_literalRGBA_no_operands : decodeTableWord 8 0b11111111 = some (.literalRGBA 0 0 0 0) := by decide
theorem test_decode_literalRGB : decodeTableWord 32 0xFEFF01FE = some (.literalRGB 0x01 0xFF 0xFE) := by decide
theorem test_decode_literalRGB_no_operands : decodeTableWord 8 0b11111110 = some (.literalRGB 0 0 0) := by decide
theorem test_decode_cachedIndex_low : decodeTableWord 8 0b00000000 = some (.cachedIndex 0) := by decide
theorem test_decode_cachedIndex_high : decodeTableWord 8 0b00111111 = some (.cachedIndex 63) := by decide
theorem test_decode_smallDelta_low : decodeTableWord 8 0b01000000 = some (.smallDelta (-2) (-2) (-2)) := by decide
theorem test_decode_smallDelta_fields : decodeTableWord 8 0b01011011 = some (.smallDelta (-1) 0 1) := by decide
theorem test_decode_lumaDelta_low : decodeTableWord 16 0b0000000010000000 = some (.lumaDelta (-32) (-8) (-8)) := by decide
theorem test_decode_lumaDelta_high : decodeTableWord 16 0b1111000010111111 = some (.lumaDelta 31 7 (-8)) := by decide
theorem test_decode_run_low : decodeTableWord 8 0b11000000 = some (.run 1) := by decide
theorem test_decode_run_high : decodeTableWord 8 0b11111101 = some (.run 62) := by decide
/-- In stream order, and as the match of the table's row. -/
theorem test_decode_endMarker :
    decodeTableWord 64 (1 * 2 ^ 56) = some .endMarker ∧ decodeTableWord 64 0x0000000000000001 = some .endMarker := by decide
/-- The same number in eight bits is a tag. -/
theorem test_decode_one : decodeTableWord 8 0x01 = some (.cachedIndex 1) := by decide
/-- D-M2 and D-M3: the marker's bytes in another order are a tag. -/
theorem test_decode_near_marker :
    decodeWindow #v[0, 0, 0, 0, 0, 0, 1, 0] = .cachedIndex 0 ∧ decodeWindow #v[1, 0, 0, 0, 0, 0, 0, 0] = .cachedIndex 1 := by
  decide
/-- R62: a sequence can only be too short. -/
theorem test_decode_short :
    decode [0xFF, 1, 2, 3] = .error (.missingOperands .literalRGBA) ∧ decode [0x80] = .error (.missingOperands .lumaDelta) ∧
    decode [] = .error .noTag := by decide

theorem test_encode :
    encode (.literalRGB 1 2 3) = [0xFE, 1, 2, 3] ∧ encode (.literalRGBA 1 2 3 4) = [0xFF, 1, 2, 3, 4] ∧
    encode (.cachedIndex 53) = [0x35] ∧ encode (.smallDelta 1 (-2) 0) = [0x72] ∧
    encode (.lumaDelta 5 (-5) 4) = [0xA5, 0x3C] ∧ encode (.run 5) = [0xC4] ∧
    encode .endMarker = [0, 0, 0, 0, 0, 0, 0, 1] := by decide

/-- R65: a text, line by line (P1 of 95_test_vectors.md). -/
theorem test_assemble :
    assemble [.header 0x71 0x6F 0x69 0x66 1 1 4 0, .instr (.literalRGBA 10 20 30 40), .instr .endMarker] =
      some [0x71, 0x6F, 0x69, 0x66, 0, 0, 0, 1, 0, 0, 0, 1, 4, 0, 0xFF, 10, 20, 30, 40, 0, 0, 0, 0, 0, 0, 0, 1] := by
  decide
theorem test_assemble_bytes : assemble [.bytes [0xC0], .instr (.run 1)] = some [0xC0, 0xC0] := by decide

/-! ### Single steps -/

/-- A word about to run as the next record, with a previous pixel and a cache. -/
def ready (nbits w : Nat) (prev : Pixel) (cache : Cache) : State :=
  { State.reset.withFetchWord nbits w with prev := prev, cache := cache }

def noPixels : Cache := Vector.replicate 64 none

/-- The field of the next state that a test looks at. -/
def after {α : Type} (f : State → α) (s : State) : Option α := (nextState? (step s)).map f

/-- D-L3. -/
theorem test_literalRGBA :
    after (fun t => (t.prev, cacheLookup 12 t.cache, t.pos)) (ready 40 0x281E140AFF ⟨1, 2, 3, 4⟩ noPixels) =
      some (⟨10, 20, 30, 40⟩, some ⟨10, 20, 30, 40⟩, 27) := by decide
/-- D-L2: alpha is inherited; the slot is 44. -/
theorem test_literalRGB :
    after (fun t => (t.sink, cacheLookup 44 t.cache)) (ready 32 0x070809FE ⟨0, 0, 0, 40⟩ noPixels) =
      some ([⟨9, 8, 7, 40⟩], some ⟨9, 8, 7, 40⟩) := by decide
/-- D-L5: operand bytes 0xFE and 0xFF are data. -/
theorem test_literalRGB_tags_as_data :
    after (fun t => (t.prev, cacheLookup 28 t.cache)) (ready 32 0xFEFFFEFE ⟨0, 0, 0, 255⟩ noPixels) =
      some (⟨254, 255, 254, 255⟩, some ⟨254, 255, 254, 255⟩) := by decide
/-- D-I2. -/
theorem test_cachedIndex :
    after (fun t => (t.sink, t.bytesConsumed)) (ready 8 0x00 ⟨1, 1, 1, 1⟩ (cacheInsert ⟨5, 5, 5, 255⟩ noPixels)) =
      some ([⟨5, 5, 5, 255⟩], 23) := by decide
/-- D-I1. -/
theorem test_cachedIndex_miss :
    after (fun t => (t.phase, t.errCode.code, t.sink, t.failedIndexOffset)) (ready 8 0x05 ⟨1, 1, 1, 1⟩ noPixels) =
      some (.error, 3, [], 14) := by decide
/-- D-S1 and its slot 4. -/
theorem test_smallDelta :
    after (fun t => (t.prev, cacheLookup 4 t.cache)) (ready 8 0x72 ⟨10, 10, 10, 255⟩ noPixels) =
      some (⟨11, 8, 10, 255⟩, some ⟨11, 8, 10, 255⟩) := by decide
/-- D-S3. -/
theorem test_smallDelta_wraps :
    after (fun t => t.prev) (ready 8 0x7F ⟨255, 255, 255, 7⟩ noPixels) = some ⟨0, 0, 0, 7⟩ := by decide
/-- D-U1. -/
theorem test_lumaDelta :
    after (fun t => (t.prev, t.pos)) (ready 16 0x3CA5 ⟨100, 100, 100, 255⟩ noPixels) =
      some (⟨100, 105, 109, 255⟩, 24) := by decide
/-- D-U2. -/
theorem test_lumaDelta_wraps :
    after (fun t => t.prev) (ready 16 0x0080 ⟨9, 8, 7, 40⟩ noPixels) = some ⟨225, 232, 223, 40⟩ := by decide
/-- D-R2. -/
theorem test_run :
    after (fun t => (t.sink, t.pixelCount)) (ready 8 0xC4 ⟨1, 2, 3, 4⟩ noPixels) =
      some (List.replicate 5 ⟨1, 2, 3, 4⟩, 5) := by decide
/-- D-R4: slot 53 under ALL, none under LITERAL_ONLY. -/
theorem test_run_policy :
    after (fun t => t.cacheValid 53) (ready 8 0xC0 Pixel.opaqueBlack noPixels) = some true ∧
    after (fun t => t.cacheValid 53) { ready 8 0xC0 Pixel.opaqueBlack noPixels with policy := .literalOnly } =
      some false := by decide
/-- D-M1: no read, no pixel. -/
theorem test_endMarker :
    after (fun t => (t.phase, t.bytesConsumed, t.sink)) (ready 64 (1 * 2 ^ 56) ⟨1, 2, 3, 4⟩ noPixels) =
      some (.done, 22, []) := by decide

/-- A decode just started on a source. -/
def started (source : List Byte) : State := State.begin source State.reset

/-- D-H7: any magic, width and height pass. -/
theorem test_header :
    after (fun t => (t.phase, t.hdrWidth, t.hdrHeight, t.hdrValid))
      (started (encodeHeader 0x71 0x6F 0x69 0x66 4294967295 256 4 1)) = some (.streaming, 4294967295, 256, true) := by
  decide
/-- D-H2. -/
theorem test_header_channels :
    after (fun t => (t.errCode.code, t.bytesConsumed, t.hdrValid)) (started (encodeHeader 0x71 0x6F 0x69 0x66 1 1 5 0)) =
      some (1, 13, false) := by decide
/-- D-H3. -/
theorem test_header_colorspace :
    after (fun t => (t.errCode.code, t.bytesConsumed, t.hdrValid)) (started (encodeHeader 0x71 0x6F 0x69 0x66 1 1 4 2)) =
      some (1, 14, false) := by decide
/-- D-H5. -/
theorem test_header_short :
    after (fun t => (t.errCode.code, t.bytesConsumed)) (started [0x71, 0x6F, 0x69, 0x66, 0, 0, 0, 1, 0]) =
      some (2, 9) := by decide

/-- The table of hashes, 95_test_vectors.md 2.2. -/
theorem test_hash :
    cacheHash ⟨0, 0, 0, 255⟩ = 53 ∧ cacheHash ⟨255, 255, 255, 255⟩ = 38 ∧ cacheHash ⟨10, 20, 30, 40⟩ = 12 ∧
    cacheHash ⟨5, 5, 5, 255⟩ = 0 ∧ cacheHash ⟨11, 8, 10, 255⟩ = 4 ∧ cacheHash ⟨101, 101, 101, 255⟩ = 32 := by decide

/-! ### Clock edges -/

def waitEdge : Edge := ⟨false, none, false, false, false⟩
def byteEdge : Edge := ⟨false, none, true, false, false⟩
def eofEdge : Edge := ⟨false, none, false, true, false⟩
def takeEdge : Edge := ⟨false, none, false, false, true⟩
def rstEdge : Edge := ⟨true, some [0x71], true, true, true⟩
def startEdge : Edge := ⟨false, some [0x71, 0x6F], false, false, false⟩

/-- R28: one byte transfers, and the pixel is offered; then the port waits for `out_ready`. -/
theorem test_edge_offers :
    (clockEdge byteEdge (ready 8 0x72 ⟨10, 10, 10, 255⟩ noPixels)).offered = some ⟨11, 8, 10, 255⟩ := by decide
/-- R93: a Run of five, one pixel accepted. -/
theorem test_edge_run :
    (clockEdge takeEdge (clockEdge byteEdge (ready 8 0xC4 ⟨1, 2, 3, 4⟩ noPixels))).micro = .emit ⟨⟨1, 2, 3, 4⟩, .run, 3⟩ := by
  decide
theorem test_edge_start : (clockEdge startEdge State.reset).phase = .awaitingHeader := by decide
theorem test_edge_rst : (clockEdge rstEdge (ready 8 0xC4 ⟨1, 2, 3, 4⟩ noPixels)).phase = .idle := by decide
/-- R43. -/
theorem test_packPixel : packPixel ⟨0x11, 0x22, 0x33, 0x44⟩ = 0x11223344 := by decide

/-! ### States that meet the hypotheses of the obligations -/

/-- A header of 2 by 1 pixels, 3 channels, colour space 0 (its magic is free, R70). -/
def header : List Byte := encodeHeader 0x71 0x6F 0x69 0x66 2 1 3 0

/-- After the header, before the priming. -/
def toPrime (rest : List Byte) : State :=
  { started (header ++ rest) with
    phase := .streaming, micro := .prime 0, hdrValid := true, pos := 14, bytesConsumed := 14
    header := #v[0x71, 0x6F, 0x69, 0x66, 0, 0, 0, 2, 0, 0, 0, 1, 3, 0] }

/-- At the first opcode boundary, the window holding the first eight bytes of the pixel stream. -/
def toRecord (w : Window) (rest : List Byte) : State :=
  { toPrime (w.toList ++ rest) with micro := .boundary, window := w, pos := 22, bytesConsumed := 22 }

/-- Priming with a Run of two in front, then the end marker's last byte. -/
def runWindow : Window := #v[0xC1, 0, 0, 0, 0, 0, 0, 0]

/-- A lookup of the empty slot 5, P4 of 95_test_vectors.md. -/
def missWindow : Window := #v[0x05, 0, 0, 0, 0, 0, 0, 0]

/-- The decode of `missWindow` after its error. -/
def missed : State :=
  { toRecord missWindow [0x01] with
    phase := .error, errCode := .invalidCacheReference, micro := .idle, pos := 23, bytesConsumed := 23
    window := marker }

/-- An empty image, P7 of 95_test_vectors.md, after its end marker. -/
def ended : State := { toRecord marker [] with phase := .done, micro := .idle }

theorem witness_inv_started : (started header).Inv := by constructor <;> decide
theorem witness_inv_toPrime : (toPrime [1, 2, 3]).Inv := by constructor <;> decide
theorem witness_inv_run : (toRecord runWindow [0x01]).Inv := by constructor <;> decide
theorem witness_inv_miss : (toRecord missWindow [0x01]).Inv := by constructor <;> decide
theorem witness_inv_short : (toRecord runWindow []).Inv := by constructor <;> decide
theorem witness_inv_marker : (toRecord marker []).Inv := by constructor <;> decide
theorem witness_inv_missed : missed.Inv := by constructor <;> decide
theorem witness_inv_ended : ended.Inv := by constructor <;> decide
theorem witness_boundary (w : Window) (rest : List Byte) : (toRecord w rest).AtBoundary := ⟨rfl, rfl, rfl⟩

theorem witness_DecodeEncodeRoundTrip :
    (Instr.lumaDelta (-32) 7 (-8)).wellFormed = true ∧
    (encode (.lumaDelta (-32) 7 (-8)) ++ [0x00]).take 8 ≠ marker.toList := by decide
theorem witness_EveryTagHasOneClass :
    (0x3F : Byte).toNat ≤ 0x3F ∧ 0x40 ≤ (0x40 : Byte).toNat ∧ (0x7F : Byte).toNat ≤ 0x7F ∧ 0x80 ≤ (0x80 : Byte).toNat ∧
    (0xBF : Byte).toNat ≤ 0xBF ∧ 0xC0 ≤ (0xC0 : Byte).toNat ∧ (0xFD : Byte).toNat ≤ 0xFD := by decide
theorem witness_ParallelRunClassifier :
    (0xFD : Byte).extractLsb 7 6 = 0b11 ∧ ¬ (0xFD : Byte).extractLsb 7 1 = 0b1111111 ∧ classify 0xFE = .literalRGB ∧
    classify 0xFF = .literalRGBA := by decide
theorem witness_RecordLengthFollowsTag :
    decode (0xBF :: [0xFF, 0x00]) = .ok (.lumaDelta 31 7 7, [0x00]) ∧ Instr.lumaDelta 31 7 7 ≠ .endMarker := by decide
theorem witness_AssemblerRefusesOutOfRange :
    assemble [.instr (.run 62)] = some [0xFD] ∧ assemble [.instr (.run 63)] = none := by decide
theorem witness_HashAtAnyWidth : 6 ≤ 6 ∧ 6 ≤ 64 := by decide
theorem witness_CacheInvariantKept :
    (Memory.wf (ready 8 0xC0 ⟨1, 2, 3, 4⟩ (cacheInsert ⟨5, 5, 5, 255⟩ noPixels)).cache ∧
      after (fun t => t.pos) (ready 8 0xC0 ⟨1, 2, 3, 4⟩ (cacheInsert ⟨5, 5, 5, 255⟩ noPixels)) = some 23) ∧
    (Memory.wf (cacheInsert ⟨5, 5, 5, 255⟩ noPixels) ∧
      cacheLookup 0 (cacheInsert ⟨5, 5, 5, 255⟩ noPixels) = some ⟨5, 5, 5, 255⟩) := by decide
theorem witness_PopulatedSlotStays :
    after (fun t => t.pos) (ready 8 0xC0 ⟨1, 2, 3, 4⟩ (cacheInsert ⟨5, 5, 5, 255⟩ noPixels)) = some 23 ∧
    (ready 8 0xC0 ⟨1, 2, 3, 4⟩ (cacheInsert ⟨5, 5, 5, 255⟩ noPixels)).cacheValid 0 = true ∧
    (∀ e ∈ (ready 8 0xC0 ⟨1, 2, 3, 4⟩ (cacheInsert ⟨5, 5, 5, 255⟩ noPixels)).schedule.head?, e.rst = false ∧
      ((ready 8 0xC0 ⟨1, 2, 3, 4⟩ (cacheInsert ⟨5, 5, 5, 255⟩ noPixels)).busy = true ∨ e.start = none)) := by decide
theorem witness_HeaderAccepted :
    (started header).phase = .awaitingHeader ∧ (started header).micro = .header 0 ∧ (started header).pos = 0 ∧
    (started header).schedule = [] ∧
    (started header).source = encodeHeader 0x71 0x6F 0x69 0x66 2 1 3 0 ++ [] := by decide
/-- A header whose channels byte is 5 and whose colour-space byte is 2, its first twelve bytes as a vector. -/
def badBytes : Vector Byte 12 := #v[0x71, 0x6F, 0x69, 0x66, 0, 0, 0, 2, 0, 0, 0, 1]
theorem witness_BadChannelsByte :
    (started (badBytes.toList ++ 5 :: [])).phase = .awaitingHeader ∧ (5 : Byte) ≠ 3 ∧ (5 : Byte) ≠ 4 ∧
    after (fun t => (t.errCode, t.pos)) (started (badBytes.toList ++ 5 :: [])) = some (.malformedHeader, 13) := by decide
theorem witness_BadColorspaceByte :
    (started (badBytes.toList ++ 4 :: 2 :: [])).phase = .awaitingHeader ∧ (2 : Byte) ≠ 0 ∧ (2 : Byte) ≠ 1 ∧
    after (fun t => (t.errCode, t.pos)) (started (badBytes.toList ++ 4 :: 2 :: [])) = some (.malformedHeader, 14) := by
  decide
/-- Thirteen bytes, a legal channels byte the last of them. -/
theorem witness_TruncatedHeader :
    (started (header.take 13)).source.length < 14 ∧ (started (header.take 13)).source[12]? = some 3 ∧
    after (fun t => (t.errCode, t.pos)) (started (header.take 13)) = some (.truncatedStream, 13) := by decide
theorem witness_PrimingReadsEight :
    (toPrime runWindow.toList).phase = .streaming ∧ (toPrime runWindow.toList).micro = .prime 0 ∧
    (toPrime runWindow.toList).schedule = [] ∧
    runWindow.toList <+: (toPrime runWindow.toList).source.drop (toPrime runWindow.toList).pos := by decide
theorem witness_TruncatedPriming :
    (toPrime (runWindow.toList.take 7)).micro = .prime 0 ∧ (toPrime (runWindow.toList.take 7)).schedule = [] ∧
    (toPrime (runWindow.toList.take 7)).source.drop 14 = runWindow.toList.take 7 ∧ (runWindow.toList.take 7).length < 8 := by
  decide
theorem witness_StepRunsDecodedRecord :
    (toRecord marker []).window = marker ∧ (toRecord runWindow [0x01]).window ≠ marker ∧
    (toRecord runWindow [0x01]).source[(toRecord runWindow [0x01]).pos]? = some 0x01 := by decide
theorem witness_LoadedWordRunsNext :
    decodeTableWord 8 0xFD = some (.run 62) ∧ decodeTableWord 64 (1 * 2 ^ 56) = some .endMarker := by decide
theorem witness_MarkerEndsDecode :
    (toRecord marker []).window = marker ∧ (toRecord marker []).pointFits = true ∧
    after (fun t => t.phase) (toRecord marker []) = some .done ∧ (toRecord marker []).phase ≠ .done ∧
    (toPrime marker.toList).micro = .prime 0 ∧ marker.toList <+: (toPrime marker.toList).source.drop 14 := by decide
theorem witness_TruncatedTagFetch :
    (toRecord runWindow []).window ≠ marker ∧
    (toRecord runWindow []).source.length ≤ (toRecord runWindow []).pos := by decide
theorem witness_RecordAdvancesByLength :
    after (fun t => (t.phase, t.pos)) (toRecord runWindow [0x01]) = some (.streaming, 23) := by decide
/-- Three operand bytes left, and two. -/
theorem witness_LiteralRGBRecord :
    [1, 2, 3] <+: (toRecord marker [1, 2, 3]).source.drop (toRecord marker [1, 2, 3]).pos ∧
    (toRecord marker [1, 2]).source.drop (toRecord marker [1, 2]).pos = [1, 2] := by decide
/-- Four operand bytes left, and three. -/
theorem witness_LiteralRGBARecord :
    [1, 2, 3, 4] <+: (toRecord marker [1, 2, 3, 4]).source.drop (toRecord marker [1, 2, 3, 4]).pos ∧
    (toRecord marker [1, 2, 3]).source.drop (toRecord marker [1, 2, 3]).pos = [1, 2, 3] := by decide
/-- The last tag of the family, a slot that is populated, and one that is not. -/
theorem witness_CachedIndexRecord :
    (0x3F : Byte).toNat ≤ 0x3F ∧
    cacheLookup 0 (ready 8 0 ⟨1, 1, 1, 1⟩ (cacheInsert ⟨5, 5, 5, 255⟩ noPixels)).cache = some ⟨5, 5, 5, 255⟩ ∧
    cacheLookup 63 (ready 8 0 ⟨1, 1, 1, 1⟩ (cacheInsert ⟨5, 5, 5, 255⟩ noPixels)).cache = none := by decide
theorem witness_SmallDeltaRecord :
    0x40 ≤ (0x40 : Byte).toNat ∧ (0x40 : Byte).toNat ≤ 0x7F ∧ 0x40 ≤ (0x7F : Byte).toNat ∧ (0x7F : Byte).toNat ≤ 0x7F := by
  decide
/-- The first and the last tag, a source with a byte left, and one with none. -/
theorem witness_LumaDeltaRecord :
    0x80 ≤ (0x80 : Byte).toNat ∧ (0xBF : Byte).toNat ≤ 0xBF ∧
    (toRecord marker [7]).source[(toRecord marker [7]).pos]? = some 7 ∧
    (toRecord marker []).source.length ≤ (toRecord marker []).pos := by decide
theorem witness_RunRecord : 0xC0 ≤ (0xFD : Byte).toNat ∧ (0xFD : Byte).toNat ≤ 0xFD ∧ 1 ≤ 62 ∧ 62 ≤ 62 := by decide
theorem witness_DeltaChannelsWrap :
    (nextState? (exec (.smallDelta 1 1 1) (toRecord marker []))).map (fun t => t.prev) = some ⟨1, 1, 1, 255⟩ := by decide
/-- At a boundary, under LITERAL_ONLY. -/
def literalOnly : State := { toRecord marker [1, 2, 3, 4] with policy := .literalOnly }
/-- Each literal, and a record that is none. -/
theorem witness_LiteralOnlyKeepsCache :
    literalOnly.policy = .literalOnly ∧ (nextState? (exec (.literalRGBA 1 2 3 4) literalOnly)).isSome = true ∧
    (nextState? (exec (.literalRGB 1 2 3) literalOnly)).isSome = true ∧
    (nextState? (exec (.run 1) literalOnly)).isSome = true ∧ (∀ r g b a, Instr.run 1 ≠ .literalRGBA r g b a) ∧
    (∀ r g b, Instr.run 1 ≠ .literalRGB r g b) := ⟨rfl, rfl, rfl, rfl, by simp, by simp⟩
/-- A record that commits, the end marker, a failed lookup, and a Run under LITERAL_ONLY. -/
theorem witness_RecordFrame :
    (nextState? (exec (.literalRGB 1 2 3) (toRecord marker [1, 2, 3]))).map (fun t => t.pos) = some 25 ∧
    (nextState? (exec .endMarker (toRecord marker []))).isSome = true ∧
    ((nextState? (exec (.cachedIndex 63) literalOnly)).isSome = true ∧ cacheLookup 63 literalOnly.cache = none) ∧
    (literalOnly.policy = .literalOnly ∧ isLiteral (.run 62) = false ∧
      (nextState? (exec (.run 62) literalOnly)).isSome = true) := by decide
theorem witness_HeaderChangesNoRecord :
    (toRecord runWindow [0x01]).phase = .streaming ∧ (toRecord runWindow [0x01]).schedule = [] ∧
    (toRecord runWindow [0x01]).pointFits = true ∧ (nextState? (step (toRecord runWindow [0x01]))).isSome = true ∧
    byteEdge.rst = false := by decide
theorem witness_FlagsFollowPhase : missed.Inv ∧ (toRecord runWindow [0x01]).Inv :=
  ⟨witness_inv_missed, witness_inv_run⟩
theorem witness_QuiescentPhasesHold :
    State.reset.phase = .idle ∧ ended.phase = .done ∧ missed.phase = .error ∧ ended.schedule = [] ∧
    waitEdge.rst = false ∧ waitEdge.start = none := by decide
theorem witness_FailedLookupOffset :
    (toRecord missWindow [0x01]).Inv ∧ (toRecord missWindow [0x01]).AtBoundary ∧
    after (fun t => (t.errCode, t.failedIndexOffset)) (toRecord missWindow [0x01]) = some (.invalidCacheReference, 14) :=
  ⟨witness_inv_miss, witness_boundary _ _, by decide⟩
/-- After three priming bytes, none left. -/
def midPrime : State :=
  { toPrime [1, 2, 3] with
    micro := .prime 3, pos := 17, bytesConsumed := 17, window := #v[0, 0, 0, 0, 0, 1, 2, 3] }
/-- The first pixel of the decode on the port, its three operand bytes to refill, and one byte left. -/
def offering : State :=
  { toRecord #v[0xFE, 5, 5, 5, 0, 0, 0, 0] [0, 0] with
    micro := .emit ⟨⟨5, 5, 5, 255⟩, .literalRGB, 0⟩, pos := 23, bytesConsumed := 23
    window := #v[5, 5, 5, 0, 0, 0, 0, 0] }
/-- That pixel accepted. -/
def refilling : State :=
  { offering with micro := .refill 2, sink := [⟨5, 5, 5, 255⟩], pixelCount := 1, prev := ⟨5, 5, 5, 255⟩ }
theorem witness_inv_midPrime : midPrime.Inv := by constructor <;> decide
theorem witness_inv_offering : offering.Inv := by constructor <;> decide
theorem witness_inv_refilling : refilling.Inv := by constructor <;> decide
/-- Truncated in the header, at the first priming byte and at a later one, at a tag fetch, and in a refill with its
pixel still on the port and with it accepted. -/
theorem witness_TruncationConsumesSource :
    ((started (header.take 13)).Inv ∧ (started (header.take 13)).micro = .header 0 ∧
      after (fun t => t.errCode) (started (header.take 13)) = some .truncatedStream) ∧
    ((toPrime [1, 2, 3]).Inv ∧ (toPrime [1, 2, 3]).micro = .prime 0 ∧
      after (fun t => (t.errCode, t.bytesConsumed)) (toPrime [1, 2, 3]) = some (.truncatedStream, 17)) ∧
    (midPrime.Inv ∧ midPrime.micro = .prime 3 ∧
      after (fun t => (t.errCode, t.bytesConsumed)) midPrime = some (.truncatedStream, 17)) ∧
    ((toRecord runWindow []).Inv ∧ (toRecord runWindow []).micro = .boundary ∧
      after (fun t => (t.errCode, t.bytesConsumed)) (toRecord runWindow []) = some (.truncatedStream, 22)) ∧
    (offering.Inv ∧ offering.schedule = [] ∧
      after (fun t => (t.errCode, t.sink, t.pixelCount)) offering = some (.truncatedStream, [⟨5, 5, 5, 255⟩], 1)) ∧
    (refilling.Inv ∧ refilling.micro = .refill 2 ∧
      after (fun t => (t.errCode, t.bytesConsumed)) refilling = some (.truncatedStream, 24)) :=
  ⟨⟨by constructor <;> decide, rfl, by decide⟩, ⟨witness_inv_toPrime, rfl, by decide⟩,
    ⟨witness_inv_midPrime, rfl, by decide⟩, ⟨witness_inv_short, rfl, by decide⟩,
    ⟨witness_inv_offering, rfl, by decide⟩, ⟨witness_inv_refilling, rfl, by decide⟩⟩
/-- The code can stand in a state that no run reaches; a step only ever keeps it. -/
theorem witness_UnknownOpcodeNeverRaised :
    after (fun t => t.errCode) { missed with errCode := .unknownOpcode } = some .unknownOpcode := by decide
theorem witness_ImageOnlyWhenDone :
    (missed.Inv ∧ missed.phase = .error) ∧ (ended.Inv ∧ ended.phase = .done ∧ ended.image? = some (ended.header, [])) :=
  ⟨⟨witness_inv_missed, rfl⟩, ⟨witness_inv_ended, rfl, rfl⟩⟩
theorem witness_RstFromAnyState :
    ({ toRecord runWindow [0x01] with schedule := rstEdge :: [] } : State).schedule = rstEdge :: [] ∧ rstEdge.rst = true := by
  decide
theorem witness_StartBeginsDecode :
    startEdge.rst = false ∧ startEdge.start = some [0x71, 0x6F] ∧ State.reset.phase = .idle ∧ ended.phase = .done ∧
    missed.phase = .error ∧ (started header).phase = .awaitingHeader ∧ (toPrime []).phase = .streaming := by decide
theorem witness_NothingCarriesOver :
    startEdge.rst = false ∧ startEdge.start = some [0x71, 0x6F] ∧ ended.quiescent ∧ missed.quiescent ∧
    ended.policy = missed.policy ∧ ended.schedule = missed.schedule := by decide
/-- Bytes left and none left; a host that ends the source early, and one that waits. -/
theorem witness_ReadTransferRules :
    (byteEdge.rst = false ∧ (toRecord runWindow [0x01]).inReady = true ∧ byteEdge.inValid = true ∧
      (toRecord runWindow [0x01]).source[(toRecord runWindow [0x01]).pos]? = some 0x01) ∧
    (eofEdge.rst = false ∧ eofEdge.inValid = false ∧ eofEdge.inEof = true) ∧
    (waitEdge.inValid = false ∧ waitEdge.inEof = false) ∧
    ((toRecord runWindow []).inReady = true ∧
      (toRecord runWindow []).source.length ≤ (toRecord runWindow []).pos) := by decide
/-- A pixel of a Run on the port, its copy to follow. -/
def emitting : State :=
  { toRecord runWindow [0x01] with
    micro := .emit ⟨⟨0, 0, 0, 255⟩, .run, 1⟩, pos := 23, bytesConsumed := 23, window := marker }
theorem witness_BackPressureHolds :
    emitting.offered = some ⟨0, 0, 0, 255⟩ ∧ waitEdge.rst = false ∧ waitEdge.outReady = false := by decide
theorem witness_AcceptedPixelIsCommitted :
    emitting.busy = true ∧ emitting.micro = .emit ⟨⟨0, 0, 0, 255⟩, .run, 1⟩ ∧ takeEdge.rst = false ∧
    takeEdge.outReady = true := by decide
/-- A Run under ALL, a literal under LITERAL_ONLY, and a later record with another hash. -/
theorem witness_LookupSeesPreviousRecord :
    ((toRecord marker []).policy = .all ∧ commitsPixel (.run 2) (toRecord marker []) = true ∧
      (nextState? (exec (.run 2) (toRecord marker []))).map (fun t => t.sink) =
        some [⟨0, 0, 0, 255⟩, ⟨0, 0, 0, 255⟩]) ∧
    (isLiteral (.literalRGB 5 5 5) = true ∧ commitsPixel (.literalRGB 5 5 5) literalOnly = true ∧
      (nextState? (exec (.literalRGB 5 5 5) literalOnly)).map (fun t => (t.prev, cacheLookup 0 t.cache)) =
        some (⟨5, 5, 5, 255⟩, some ⟨5, 5, 5, 255⟩)) ∧
    (cacheLookup 53 (ready 8 0xC0 ⟨0, 0, 0, 255⟩ (cacheInsert ⟨0, 0, 0, 255⟩ noPixels)).cache = some ⟨0, 0, 0, 255⟩ ∧
      (nextState? (exec (.literalRGB 5 5 5)
        (ready 8 0xC0 ⟨0, 0, 0, 255⟩ (cacheInsert ⟨0, 0, 0, 255⟩ noPixels)))).map (fun t => cacheHash t.prev) = some 0 ∧
      cacheHash ⟨0, 0, 0, 255⟩ = 53) := by decide
theorem witness_InvariantKept :
    (toRecord runWindow [0x01]).Inv ∧ (nextState? (step (toRecord runWindow [0x01]))).isSome = true :=
  ⟨witness_inv_run, by decide⟩
/-- A wait, and then the byte whose record fails: the schedule ends in ERROR. -/
theorem witness_ScheduleIndependence :
    (toRecord missWindow [0x01]).Inv ∧ (toRecord missWindow [0x01]).schedule = [] ∧
    dutifulEdges [waitEdge, byteEdge] (toRecord missWindow [0x01]) ∧
    (clockEdges [waitEdge, byteEdge] (toRecord missWindow [0x01])).quiescent :=
  ⟨witness_inv_miss, rfl,
    ⟨⟨by decide, by decide, by decide⟩, ⟨by decide, by decide, by decide⟩, trivial⟩, by decide⟩
theorem witness_DecodeEnds :
    ((toRecord runWindow [0x01]).Inv ∧ (toRecord runWindow [0x01]).schedule = [] ∧
      (toRecord runWindow [0x01]).micro = .boundary) ∧ ((started header).Inv ∧ (started header).schedule = []) :=
  ⟨⟨witness_inv_run, rfl, rfl⟩, ⟨witness_inv_started, rfl⟩⟩
/-- One step, a Run of two. -/
theorem witness_PixelsAreBounded :
    (toRecord runWindow [0x01]).Inv ∧ (toRecord runWindow [0x01]).AtBoundary ∧
    ∃ t, stepsTo 1 (toRecord runWindow [0x01]) t ∧ t.sink.length = 2 :=
  ⟨witness_inv_run, witness_boundary _ _, _, ⟨_, rfl, rfl⟩, by decide⟩
/-- A source with two bytes more: they are not looked at. -/
theorem witness_NoReadAhead :
    (toRecord runWindow [0x01]).schedule = [] ∧
    after (fun t => (t.errCode, t.pos)) (toRecord runWindow [0x01]) = some (.none, 23) ∧
    (∀ k, k < 23 → (header ++ runWindow.toList ++ [0x01, 0x22, 0x33])[k]? = (toRecord runWindow [0x01]).source[k]?) := by
  decide

end Sys2Proof.Tests
end

section
/-! PROOFS of the family 00_scope.md: channel arithmetic (R10, R90) and the pixel cache under LITERAL_ONLY (R7, R79). -/

namespace Sys2Proof.Machine

/-! ### Channel arithmetic (R10, R90) -/

/-- R10: reduction modulo 256 commutes with addition. -/
theorem wrap8_add (x y : Int) : wrap8 (x + y) = wrap8 x + wrap8 y := BitVec.ofInt_add x y

@[simp] theorem wrap8_toNat (c : Byte) : wrap8 (c.toNat : Int) = c := by simp [wrap8]

/-- The 8-bit wrapping add of R90. -/
theorem addDelta_eq_add_wrap8 (c : Byte) (d : Int) : addDelta c d = c + wrap8 d := by
  rw [addDelta, wrap8_add, wrap8_toNat]

/-- R90: the exact sum, reduced once. -/
theorem addDelta_toNat (c : Byte) (d : Int) : ((addDelta c d).toNat : Int) = ((c.toNat : Int) + d) % 256 := by
  have hnonneg : 0 ≤ ((c.toNat : Int) + d) % 256 := Int.emod_nonneg _ (by decide)
  simpa [addDelta, wrap8, BitVec.toNat_ofInt] using hnonneg

/-- Two terms added one after the other are their exact sum, reduced once. -/
theorem addDelta_addDelta (c : Byte) (d e : Int) : addDelta (addDelta c d) e = addDelta c (d + e) := by
  simp only [addDelta_eq_add_wrap8, wrap8_add, BitVec.add_assoc]

/-! ### What an instruction that offers a pixel leaves behind -/

/-- An instruction whose handler offers a pixel commits it. -/
theorem committed_of_handle_offer {i : Instr} {s t : State} {p : Pixel} {cls : TagClass} {more : Nat}
    (hi : handle i s = s.offer p cls more) (h : exec i s = .next t) :
    Committed s t p more (decide (cls = .literalRGB ∨ cls = .literalRGBA)) := by
  rw [exec_eq, hi] at h
  cases h
  exact committed_offer p cls more s

theorem exec_smallDelta_prev {dr dg db : Int} {s t : State} (h : exec (.smallDelta dr dg db) s = .next t) :
    t.prev = smallDeltaPixel dr dg db s.prev :=
  (committed_of_handle_offer rfl h).prev

theorem exec_lumaDelta_prev {dg drdg dbdg : Int} {s t : State} (h : exec (.lumaDelta dg drdg dbdg) s = .next t) :
    t.prev = lumaDeltaPixel dg drdg dbdg s.prev :=
  (committed_of_handle_offer rfl h).prev

/-- R79: a LiteralRGBA inserts its pixel under either policy. -/
theorem exec_literalRGBA_cache {r g b a : Byte} {s t : State} (h : exec (.literalRGBA r g b a) s = .next t) :
    t.cache = cacheInsert ⟨r, g, b, a⟩ s.cache := by
  simpa using (committed_of_handle_offer (cls := .literalRGBA) rfl h).cache

/-- R79, R87: a LiteralRGB inserts its pixel, with the alpha it inherits, under either policy. -/
theorem exec_literalRGB_cache {r g b : Byte} {s t : State} (h : exec (.literalRGB r g b) s = .next t) :
    t.cache = cacheInsert ⟨r, g, b, s.prev.a⟩ s.cache := by
  simpa [literalRGBPixel] using (committed_of_handle_offer (cls := .literalRGB) rfl h).cache

theorem isLiteral_eq_true {i : Instr} :
    isLiteral i = true ↔ (∃ r g b a, i = .literalRGBA r g b a) ∨ ∃ r g b, i = .literalRGB r g b := by
  cases i <;> simp [isLiteral]

/-- R79: under LITERAL_ONLY an instruction that is no literal leaves the cache as it was. -/
theorem exec_cache_of_not_literal {i : Instr} {s t : State} (hp : s.policy = .literalOnly)
    (hi : isLiteral i = false) (h : exec i s = .next t) : t.cache = s.cache := by
  obtain ⟨-, rfl⟩ | ⟨_, -, -, rfl⟩ | ⟨-, p, more, hc⟩ := exec_cases h
  · rfl
  · rfl
  · rw [hc.cache, if_neg (by simp [hp, hi])]

end Sys2Proof.Machine

open Sys2Proof Sys2Proof.Machine

/-- Settles O32: wrapping adds commute with reduction, and the delta handlers offer their pixel. -/
theorem deltaChannelsWrap : Obligations.DeltaChannelsWrap := by
  unfold Obligations.DeltaChannelsWrap
  refine ⟨addDelta_toNat, fun c d e => ⟨addDelta_addDelta c d e, ?_, ?_⟩, fun i s t h => ?_⟩
  · rw [addDelta_addDelta, Int.add_comm]
  · rw [← addDelta_eq_add_wrap8, ← addDelta_eq_add_wrap8, addDelta_addDelta]
  · cases i with
    | smallDelta dr dg db =>
      rw [exec_smallDelta_prev h]
      exact .inl ⟨dr, dg, db, rfl, rfl, rfl, rfl, rfl⟩
    | lumaDelta dg drdg dbdg =>
      rw [exec_lumaDelta_prev h]
      exact .inr (.inl ⟨dg, drdg, dbdg, rfl, rfl, rfl, rfl, rfl⟩)
    | literalRGBA | literalRGB | cachedIndex | run | endMarker =>
      exact .inr (.inr ⟨by simp, by simp⟩)

/-- Settles O33: the literals insert by their commit, and every other instruction falls under the policy's frame. -/
theorem literalOnlyKeepsCache : Obligations.LiteralOnlyKeepsCache := by
  unfold Obligations.LiteralOnlyKeepsCache
  refine fun i s t hp h => ⟨?_, ?_, fun hrgba hrgb => ?_⟩
  · rintro r g b a rfl
    exact exec_literalRGBA_cache h
  · rintro r g b rfl
    exact exec_literalRGB_cache h
  · have hi : isLiteral i = false := by
      rw [← Bool.not_eq_true, isLiteral_eq_true]
      rintro (⟨r, g, b, a, rfl⟩ | ⟨r, g, b, rfl⟩)
      · exact hrgba r g b a rfl
      · exact hrgb r g b rfl
    exact exec_cache_of_not_literal hp hi h

end

section
/-! PROOFS of the family 10_state.md: the invariant of the whole machine, said of each primitive, each clock edge and
each step (R13 to R32), and the views of the phase at the ports (R15, R16, R26, R28). -/

namespace Sys2Proof

/-! ### The operands of a decoded record (R58, R59, R62) -/

theorem TagClass.operandBytes_le (cls : TagClass) : cls.operandBytes ≤ 4 := by cases cls <;> decide

/-- R60, R61: the two exact matches take the two largest counts from the Run tags. -/
theorem run_field_lt_of_classify {t : Byte} (h : classify t = .run) : field t 5 0 < 62 := by
  have hlt := t.isLt
  have hRGB : t.toNat ≠ 0xFE := fun ht => by
    rw [show t = 0xFE from BitVec.eq_of_toNat_eq ht] at h; exact absurd h (by decide)
  have hRGBA : t.toNat ≠ 0xFF := fun ht => by
    rw [show t = 0xFF from BitVec.eq_of_toNat_eq ht] at h; exact absurd h (by decide)
  have htop : t.toNat / 64 = 3 := by
    unfold classify at h
    split at h
    · cases h
    split at h
    · cases h
    split at h
    · cases h
    · cases h
    · cases h
    · next h0 h1 h2 => simp [field] at h0 h1 h2; omega
  rw [(field_arith t).1]
  omega

theorem decodeRecord_wellFormed (t b1 b2 b3 b4 : Byte) : (decodeRecord t b1 b2 b3 b4).wellFormed = true := by
  have hlt := b1.isLt
  obtain ⟨h50, h54, h32, h10, -, -⟩ := field_arith t
  obtain ⟨-, -, -, -, h74, h30⟩ := field_arith b1
  unfold decodeRecord
  cases hc : classify t with
  | literalRGBA | literalRGB | cachedIndex => rfl
  | smallDelta => simp only [Instr.wellFormed, decide_eq_true_eq]; omega
  | lumaDelta => simp only [Instr.wellFormed, decide_eq_true_eq]; omega
  | run =>
    have := run_field_lt_of_classify hc
    simp only [Instr.wellFormed, decide_eq_true_eq]; omega

theorem decodeWindow_wellFormed (w : Window) : (decodeWindow w).wellFormed = true := by
  unfold decodeWindow
  split
  · rfl
  · exact decodeRecord_wellFormed _ _ _ _ _

end Sys2Proof

namespace Sys2Proof.Machine

/-! ### The program points of a record (R27) -/

/-- After the pixels of a record, what is left of it is its refill, or nothing. -/
theorem pointFits_afterPixels {s : State} {n : Nat} (hp : s.phase = .streaming) (h22 : 22 ≤ s.pos) (hn : n ≤ 4) :
    State.pointFits { s with micro := afterPixels n } = true := by
  cases n with
  | zero => simp [State.pointFits, afterPixels, hp, h22]
  | succ n => simp [State.pointFits, afterPixels, hp, h22]; omega

theorem pointFits_emit {s : State} {e : Emission} (hp : s.phase = .streaming) (h22 : 22 ≤ s.pos)
    (hmore : e.more < 62) (hcls : e.more ≠ 0 → e.cls = .run) :
    State.pointFits { s with micro := .emit e } = true := by
  simp only [State.pointFits, hp, decide_eq_true_eq]
  exact ⟨h22, hmore, hcls⟩

/-! ### The invariant over `rst`, `start` and one edge of a read -/

/-- The clauses of the invariant do not speak of the host's schedule. -/
theorem State.Inv.withSchedule {s : State} (h : s.Inv) (es : List Edge) : State.Inv { s with schedule := es } :=
  { h with }

/-- Reset registers before any byte is read: with no decode asked for, or with header byte 0 next (R110, R111). -/
theorem State.inv_of_reset_registers {phase : Phase} {m : Micro} {source : List Byte} {sink : List Pixel}
    {schedule : List Edge} {policy : CachePolicy}
    (hpoint : (phase = .idle ∧ m = .idle) ∨ (phase = .awaitingHeader ∧ m = .header 0 ∧ sink = [])) :
    State.Inv { State.reset with
      phase := phase, micro := m, source := source, sink := sink, schedule := schedule, policy := policy } where
  cache := Memory.wf_empty
  counted := rfl
  within := Nat.zero_le _
  errors := by rcases hpoint with ⟨rfl, -⟩ | ⟨rfl, -⟩ <;> simp
  point := by rcases hpoint with ⟨rfl, rfl⟩ | ⟨rfl, rfl, -⟩ <;> rfl
  headerFlag := by rcases hpoint with ⟨rfl, -⟩ | ⟨rfl, -⟩ <;> simp
  headerValid := by simp
  channelsFirst := by rcases hpoint with ⟨-, rfl⟩ | ⟨-, rfl, -⟩ <;> simp
  headerRead := by simp
  windowRead := fun k hk => by simp only [State.reset_pos] at hk; omega
  doneAtMarker := by rcases hpoint with ⟨rfl, -⟩ | ⟨rfl, -⟩ <;> simp
  pixels := by rcases hpoint with ⟨rfl, -⟩ | ⟨-, -, rfl⟩ <;> simp
  previous := by rcases hpoint with ⟨rfl, -⟩ | ⟨-, -, rfl⟩ <;> simp

/-- R110: after `rst`, whatever the state before it. -/
theorem State.hardReset_inv (s : State) : s.hardReset.Inv :=
  State.inv_of_reset_registers (.inl ⟨rfl, rfl⟩)

/-- R111: after a `start` that is taken, whatever the state before it. -/
theorem State.begin_inv (source : List Byte) (s : State) : (s.begin source).Inv :=
  State.inv_of_reset_registers (.inr ⟨rfl, rfl, rfl⟩)

/-- R31: one edge of a read keeps the invariant where the byte's own work does. -/
theorem State.Inv.readEdge {s : State} {k : Byte → State → State} (e : Edge) (h : s.Inv) (hp : s.phase ≠ .idle)
    (hk : ∀ b, s.nextByte? = some b → (k b s).Inv) : (readEdge e k s).Inv := by
  obtain ⟨b, hb, -, he⟩ | ⟨-, -, he⟩ | ⟨-, -, he⟩ := readEdge_cases e k s <;> rw [he]
  · exact hk b hb
  · exact h.raise (by simp) hp
  · exact h

/-! ### The invariant over one header byte (R66 to R69) -/

/-- Header byte `k` is stored, and the validator has set the phase, the code, `hdr_valid` and the program point. -/
def State.storeHeader (k : Nat) (b : Byte) (phase : Phase) (err : ErrCode) (valid : Bool) (m : Micro) (s : State) : State :=
  { s.consume with
    header := s.header.setIfInBounds k b, phase := phase, errCode := err, hdrValid := valid, micro := m }

/-- Where the validator goes from header byte `k`: every way on has stored the byte. -/
theorem headerByte_eq (k : Nat) (b : Byte) (s : State) :
    headerByte k b s =
      if k = 12 then
        if validChannels b then s.storeHeader k b s.phase s.errCode s.hdrValid (.header 13)
        else s.storeHeader k b .error .malformedHeader s.hdrValid .idle
      else if k = 13 then
        if validColorspace b then s.storeHeader k b .streaming s.errCode true (.prime 0)
        else s.storeHeader k b .error .malformedHeader s.hdrValid .idle
      else s.storeHeader k b s.phase s.errCode s.hdrValid (.header (k + 1)) := rfl

section
variable {s : State} {k : Nat} {b : Byte} (h : s.Inv) (hp : s.phase = .awaitingHeader) (hk : k < 14) (hpos : s.pos = k)
  (hb : s.nextByte? = some b)
include h hp hk hpos hb

/-- A stored header byte keeps what the invariant says of the data; what it says of the control is left to show. -/
theorem State.Inv.storeHeader {phase : Phase} {err : ErrCode} {valid : Bool} {m : Micro}
    (hphase : phase = .awaitingHeader ∨ phase = .streaming ∨ phase = .error)
    (herr : err ≠ .none ↔ phase = .error)
    (hpoint : (s.storeHeader k b phase err valid m).pointFits = true)
    (hvalid : valid = true ↔ phase = .streaming)
    (hlegal : valid = true →
      validChannels (s.header.setIfInBounds k b)[12] = true ∧ validColorspace (s.header.setIfInBounds k b)[13] = true)
    (hchannels : m = .header 13 → validChannels (s.header.setIfInBounds k b)[12] = true) :
    (s.storeHeader k b phase err valid m).Inv where
  cache := h.cache
  counted := by simp [State.storeHeader, h.counted, BitVec.ofNat_add]
  within := State.nextByte?_eq_some hb
  errors := herr
  point := hpoint
  headerFlag := by
    rcases hphase with rfl | rfl | rfl
    · simpa [State.storeHeader] using hvalid
    · simpa [State.storeHeader] using hvalid
    · simp [State.storeHeader]
  headerValid := hlegal
  channelsFirst := hchannels
  headerRead := h.headerStored hb hpos
  windowRead := fun j hj => by
    simp only [State.storeHeader, State.consume_pos] at hj
    omega
  doneAtMarker := fun hd => by
    simp only [State.storeHeader] at hd
    simp [hd] at hphase
  pixels := fun _ => h.pixels (by simp [hp])
  previous := fun _ => h.previous (by simp [hp])

/-- R68, R69: a byte that the validator rejects. -/
theorem State.Inv.storeHeader_rejected : (s.storeHeader k b .error .malformedHeader s.hdrValid .idle).Inv := by
  have hvalid : s.hdrValid = false := h.headerFlag.2 (.inr hp)
  exact h.storeHeader hp hk hpos hb (by simp) (by simp) rfl (by simp [hvalid]) (by simp [hvalid]) (by simp)

/-- R66: a byte with another header byte after it. -/
theorem State.Inv.storeHeader_next (hk13 : k < 13) (hchannels : k = 12 → validChannels b = true) :
    (s.storeHeader k b s.phase s.errCode s.hdrValid (.header (k + 1))).Inv := by
  have hvalid : s.hdrValid = false := h.headerFlag.2 (.inr hp)
  have herr : s.errCode = .none := h.noError (by simp [hp])
  refine h.storeHeader hp hk hpos hb (.inl hp) (by simp [hp, herr]) ?_ (by simp [hp, hvalid]) (by simp [hvalid]) ?_
  · simp [State.pointFits, State.storeHeader, hp, hpos]; omega
  · intro h13
    obtain rfl : k = 12 := by simpa using h13
    simpa using hchannels rfl

/-- R66, R69: the colour-space byte that ends the header phase. -/
theorem State.Inv.storeHeader_last (hk13 : k = 13) (hch : validChannels s.header[12] = true)
    (hcs : validColorspace b = true) : (s.storeHeader k b .streaming s.errCode true (.prime 0)).Inv := by
  subst hk13
  have herr : s.errCode = .none := h.noError (by simp [hp])
  exact h.storeHeader hp hk hpos hb (.inr (.inl rfl)) (by simp [herr])
    (by simp [State.pointFits, State.storeHeader, hpos]) (by simp) (fun _ => ⟨by simpa using hch, by simpa using hcs⟩)
    (by simp)

/-- R66: one header byte. -/
theorem State.Inv.headerByte (hm : s.micro = .header k) : (headerByte k b s).Inv := by
  have hrejected := h.storeHeader_rejected hp hk hpos hb
  rw [headerByte_eq]
  split
  · next h12 =>
    split
    · next hch =>
      subst h12
      exact h.storeHeader_next hp hk hpos hb (by omega) fun _ => hch
    · exact hrejected
  · next h12 =>
    split
    · next h13 =>
      split
      · next hcs => exact h.storeHeader_last hp hk hpos hb h13 (h.channelsFirst (h13 ▸ hm)) hcs
      · exact hrejected
    · exact h.storeHeader_next hp hk hpos hb (by omega) fun hk12 => absurd hk12 h12

end

/-! ### The invariant over one primitive of STREAMING -/

/-- R74: one priming byte. -/
theorem State.Inv.primeByte {s : State} {k : Nat} {b : Byte} (h : s.Inv) (hp : s.phase = .streaming)
    (hk : k < 8) (hpos : s.pos = 14 + k) (hb : s.nextByte? = some b) : (primeByte k b s).Inv := by
  refine h.readShift hb hp ?_
  split
  · simp [State.pointFits, hp]; omega
  · simp [State.pointFits, hp, hpos]; omega

/-- R77, R78: the tag's byte, and the handler up to its pixel or its raise. -/
theorem State.Inv.tagByte {s : State} {b : Byte} (h : s.Inv) (hp : s.phase = .streaming) (h22 : 22 ≤ s.pos)
    (hw : s.window ≠ marker) (hb : s.nextByte? = some b) : (tagByte b s).Inv := by
  unfold Machine.tagByte
  obtain ⟨idx, -, -, he⟩ | ⟨p, cls, more, -, he, hcls, hmore, -⟩ | ⟨hend, -⟩ :=
    handle_cases (decodeWindow s.window) (s.readShift b)
  · have hfetched : State.Inv { s.readShift b with micro := .boundary } :=
      h.readShift hb hp (pointFits_afterPixels (n := 0) hp (Nat.le_succ_of_le h22) (by omega))
    rw [he]
    exact hfetched.raise (by simp) (by simp [hp])
  · rw [he]
    exact h.readShift hb hp
      (pointFits_emit hp (Nat.le_succ_of_le h22) (hmore (decodeWindow_wellFormed _)) hcls)
  · exact absurd (decodeWindow_eq_endMarker.mp hend) hw

/-- R32, R79: an accepted pixel. -/
theorem State.Inv.acceptPixel {s : State} {e : Emission} (h : s.Inv) (hp : s.phase = .streaming) (h22 : 22 ≤ s.pos)
    (hmore : e.more < 62) (hcls : e.more ≠ 0 → e.cls = .run) : (acceptPixel e s).Inv := by
  unfold Machine.acceptPixel
  split
  · exact h.commit hp (pointFits_afterPixels hp h22 (TagClass.operandBytes_le _))
  · next n hn => exact h.commit hp (pointFits_emit hp h22 (by simp only; omega) fun _ => hcls (by omega))

/-! ### The invariant over clock edges and whole operations -/

/-- One port edge of a decode in progress, at each program point of its phase (R27). -/
theorem State.Inv.portEdge {s : State} (e : Edge) (h : s.Inv) (hb : s.busy = true) : (portEdge e s).Inv := by
  unfold Machine.portEdge
  rcases State.busy_iff.mp hb with hp | hp
  · obtain ⟨k, hm, hk, hpos⟩ := h.awaiting hp
    simp only [hm]
    exact h.readEdge e (by simp [hp]) fun b hb => h.headerByte hp hk hpos hb hm
  · obtain ⟨k, hm, hk, hpos⟩ | ⟨h22, hm | ⟨em, hm, hmore, hcls⟩ | ⟨n, hm, hn⟩⟩ := h.streaming hp
    · simp only [hm]
      exact h.readEdge e (by simp [hp]) fun b hb => h.primeByte hp hk hpos hb
    · simp only [hm]
      split
      · next hw => exact h.endMarker hp hw h22
      · next hw => exact h.readEdge e (by simp [hp]) fun b hb => h.tagByte hp h22 hw hb
    · simp only [hm]
      split
      · exact h.acceptPixel hp h22 hmore hcls
      · exact h
    · simp only [hm]
      exact h.readEdge e (by simp [hp]) fun b hb =>
        h.readShift hb hp (pointFits_afterPixels hp (Nat.le_succ_of_le h22) (by omega))

/-- One served primitive. -/
theorem State.Inv.serve {s : State} (h : s.Inv) : (serve s).Inv := by
  cases hb : s.busy with
  | true => exact h.portEdge _ hb
  | false => rw [h.serve_quiescent hb]; exact h

/-- One clock edge, of any kind. -/
theorem State.Inv.clockEdge {s : State} (e : Edge) (h : s.Inv) : (clockEdge e s).Inv := by
  unfold Machine.clockEdge
  split
  · exact s.hardReset_inv
  · split
    · next hb => exact h.portEdge e hb
    · split
      · exact s.begin_inv _
      · exact h

/-- One whole operation: a chain of served primitives (R86, R114). -/
theorem State.Inv.operate {s t : State} (h : s.Inv) (ht : operate s = .next t) : t.Inv := by
  cases hb : s.busy with
  | true =>
    obtain ⟨m, hm, -⟩ := operate_serves hb
    rw [hm] at ht
    cases ht
    exact serve_iterate_keeps (P := State.Inv) (fun _ => State.Inv.serve) m s h
  | false =>
    rw [operate_quiescent hb] at ht
    cases ht
    exact h

/-- One step. -/
theorem State.Inv.step {s t : State} (h : s.Inv) (ht : step s = .next t) : t.Inv := by
  unfold Machine.step at ht
  split at ht
  · cases ht
    exact (h.withSchedule _).clockEdge _
  · exact h.operate ht

/-! ### The views of the phase (R15, R16, R26, R28) -/

/-- R15: no two phases share a code. -/
theorem Phase.code_inj {p q : Phase} : p.code = q.code ↔ p = q := by
  cases p <;> cases q <;> decide

theorem ErrCode.code_eq_zero {e : ErrCode} : e.code = 0 ↔ e = .none := by
  cases e <;> decide

theorem State.done_iff {s : State} : s.done = true ↔ s.phase = .done := by simp [State.done]

theorem State.error_iff {s : State} : s.error = true ↔ s.phase = .error := by simp [State.error]

/-- R32: a pixel is on the port exactly at the program points that emit one. -/
theorem State.offered_eq_some {s : State} {p : Pixel} :
    s.offered = some p ↔ s.busy = true ∧ ∃ e, s.micro = .emit e ∧ e.pixel = p := by
  unfold State.offered
  cases s.busy <;> cases s.micro <;> simp

/-- R28: no byte is asked for while a pixel is offered. -/
theorem State.inReady_of_offered {s : State} {p : Pixel} (h : s.offered = some p) : s.inReady = false := by
  obtain ⟨-, e, hm, -⟩ := State.offered_eq_some.mp h
  simp [State.inReady, hm]

end Sys2Proof.Machine

open Sys2Proof Sys2Proof.Machine

/-- Settles O54: the step lemma of the invariant. -/
theorem invariantKept : Obligations.InvariantKept := by
  unfold Obligations.InvariantKept
  exact fun s t h ht => h.step ht

/-- Settles O46: a state that offers a pixel is not reading, and `rst` shows the reset outputs. -/
theorem portsAreExclusive : Obligations.PortsAreExclusive := by
  unfold Obligations.PortsAreExclusive
  refine ⟨fun rst s => ?_, fun s => rfl⟩
  rintro ⟨hin, hout⟩
  cases rst with
  | true => cases hin
  | false =>
    obtain ⟨p, hp⟩ : ∃ p, s.offered = some p := Option.isSome_iff_exists.mp hout
    have hin' : s.inReady = true := hin
    rw [State.inReady_of_offered hp] at hin'
    cases hin'

/-- Settles O48: each flag is an equation on the phase, the phase's code is one-to-one, and `err_code` is the invariant's
clause (R16). -/
theorem flagsFollowPhase : Obligations.FlagsFollowPhase := by
  unfold Obligations.FlagsFollowPhase
  intro s
  have hdone : s.phase.code = 3 ↔ s.phase = .done := Phase.code_inj (q := .done)
  have herror : s.phase.code = 4 ↔ s.phase = .error := Phase.code_inj (q := .error)
  have hawaiting : s.phase.code = 1 ↔ s.phase = .awaitingHeader := Phase.code_inj (q := .awaitingHeader)
  have hstreaming : s.phase.code = 2 ↔ s.phase = .streaming := Phase.code_inj (q := .streaming)
  rw [hdone, herror, hawaiting, hstreaming]
  exact ⟨State.done_iff, State.error_iff, State.busy_iff, rfl, rfl, rfl,
    fun h => (not_congr ErrCode.code_eq_zero).trans h.errors⟩

end

section
/-! PROOFS of the family 20_memory.md: the byte source (R31, R46, R84, R114), the pixel cache (R33 to R37, R49, R52), the
window and its ring buffer (R38, R40), and the ports and the edges of `start` and of an accepted pixel (R32, R43, R53). -/

namespace Sys2Proof.Machine

/-! ### The cache along a step (R36, R37, R52) -/

/-- What every insert keeps, every step keeps: the cache is else only emptied, by `rst` or by a `start` that is taken. -/
theorem step_cache_keeps {P : Cache → Prop} {s t : State} (hinsert : ∀ p c, P c → P (cacheInsert p c))
    (hempty : (∃ e ∈ s.schedule.head?, e.rst = true ∨ s.busy = false ∧ e.start ≠ none) → P (Vector.replicate 64 none))
    (hs : P s.cache) (h : step s = .next t) : P t.cache := by
  have hserve : ∀ u : State, P u.cache → P (serve u).cache := fun u hu => by
    obtain hc | ⟨p, hc⟩ := serve_cache u <;> rw [hc]
    · exact hu
    · exact hinsert p _ hu
  obtain ⟨e, es, hsch, ⟨hr, rfl⟩ | ⟨-, hb, ⟨source, hst, rfl⟩⟩ | ⟨-, -, rfl⟩ | ⟨-, -, rfl⟩ | ⟨-, -, -, -, -, rfl⟩⟩ |
    ⟨-, ⟨-, m, rfl⟩ | ⟨-, rfl⟩⟩ := step_cases h
  · exact hempty ⟨e, by simp [hsch], .inl hr⟩
  · exact hempty ⟨e, by simp [hsch], .inr ⟨hb, by simp [hst]⟩⟩
  · exact hs
  · exact hserve _ hs
  · exact hs
  · exact serve_iterate_keeps (P := fun u => P u.cache) hserve m s hs
  · exact hs

/-- R37: one step keeps the cache's canonical form. -/
theorem Memory.wf_step {s t : State} (hs : Memory.wf s.cache) (h : step s = .next t) : Memory.wf t.cache :=
  step_cache_keeps (fun p _ => Memory.wf_cacheInsert p) (fun _ => Memory.wf_empty) hs h

/-- R37: under the canonical form, the pixel a lookup found is in its slot already. -/
theorem cacheInsert_of_cacheLookup {cache : Cache} {i : Fin 64} {p : Pixel} (hwf : Memory.wf cache)
    (hp : cacheLookup i cache = some p) : cacheInsert p cache = cache := by
  obtain rfl : cacheHash p = i := Memory.wf_iff.mp hwf i p hp
  have hslot : cache[(cacheHash p).val] = some p := hp
  simp only [cacheInsert, ← hslot, Vector.set_getElem_self]

/-- R36: an insert empties no slot. -/
theorem cacheLookup_isSome_cacheInsert {c : Cache} {i : Fin 64} (p : Pixel) (h : (cacheLookup i c).isSome = true) :
    (cacheLookup i (cacheInsert p c)).isSome = true := by
  by_cases hi : i = cacheHash p
  · subst hi; simp
  · rwa [cacheLookup_cacheInsert_other c hi]

/-! ### A dutiful host's edges are waits and served primitives (R113, R114) -/

/-- R31: where `in_eof` comes only at the end of the source, an edge of a read waits or does what a served read does. -/
theorem readEdge_of_dutiful {e : Edge} {s : State} (k : Byte → State → State)
    (heof : e.inEof = true → s.source.length ≤ s.pos) :
    readEdge e k s = s ∨ readEdge e k s = readEdge (promptEdge s) k s := by
  rw [readEdge_prompt]
  obtain ⟨b, hb, -, he⟩ | ⟨hin, -, he⟩ | ⟨-, -, he⟩ := readEdge_cases e k s <;> rw [he]
  · rw [hb]; exact .inr rfl
  · rw [State.nextByte?_eq_none.mpr (heof hin)]; exact .inr rfl
  · exact .inl rfl

theorem portEdge_of_dutiful {e : Edge} {s : State} (heof : e.inEof = true → s.source.length ≤ s.pos) :
    portEdge e s = s ∨ portEdge e s = serve s := by
  unfold serve portEdge
  cases s.micro with
  | idle => exact .inl rfl
  | header k => exact readEdge_of_dutiful _ heof
  | prime k => exact readEdge_of_dutiful _ heof
  | refill n => exact readEdge_of_dutiful _ heof
  | boundary =>
    simp only
    split
    · exact .inr rfl
    · exact readEdge_of_dutiful _ heof
  | emit em =>
    cases e.outReady
    · exact .inl rfl
    · exact .inr rfl

theorem clockEdge_of_dutiful {e : Edge} {s : State} (h : e.dutiful s) : clockEdge e s = s ∨ clockEdge e s = serve s := by
  obtain ⟨hrst, hstart, heof⟩ := h
  unfold clockEdge
  cases hb : s.busy with
  | true => simpa [hrst] using portEdge_of_dutiful heof
  | false => simp [hrst, hstart hb]

/-- R114: a dutiful schedule is a chain of served primitives. -/
theorem clockEdges_of_dutiful : ∀ (es : List Edge) (s : State), dutifulEdges es s → ∃ n, clockEdges es s = serve^[n] s
  | [], s, _ => ⟨0, rfl⟩
  | e :: es, s, ⟨he, hes⟩ => by
    obtain ⟨n, hn⟩ := clockEdges_of_dutiful es (clockEdge e s) hes
    rw [clockEdges, hn]
    obtain hw | hw := clockEdge_of_dutiful he <;> rw [hw]
    · exact ⟨n, rfl⟩
    · exact ⟨n + 1, rfl⟩

/-! ### Whole operations reach the end of a served decode (R86, R114) -/

theorem inv_serve_iterate {s : State} (n : Nat) (h : s.Inv) : (serve^[n] s).Inv :=
  serve_iterate_keeps (P := State.Inv) (fun _ => State.Inv.serve) n s h

theorem serve_iterate_schedule (n : Nat) {s : State} (h : s.schedule = []) : (serve^[n] s).schedule = [] :=
  serve_iterate_keeps (P := fun u => u.schedule = []) (fun u hu => (serve_source u).2.2.trans hu) n s h

/-- R109: a decode that has ended stays as it is. -/
theorem serve_iterate_of_quiescent {s : State} (h : s.Inv) (hq : s.quiescent) (n : Nat) : serve^[n] s = s :=
  Function.iterate_fixed (h.serve_quiescent hq) n

/-- An end that served primitives reach is reached by whole operations: each is a chain of at least one of them, and a
chain that goes past the end stays there. -/
theorem stepsTo_of_serve_iterate (n : Nat) (s : State) (h : s.Inv) (hs : s.schedule = [])
    (hq : (serve^[n] s).quiescent) : ∃ k, stepsTo k s (serve^[n] s) := by
  induction n using Nat.strong_induction_on generalizing s with
  | _ n ih =>
    cases hb : s.busy with
    | false => exact ⟨0, (serve_iterate_of_quiescent h hb n).symm⟩
    | true =>
      obtain ⟨m, hop, hm⟩ := operate_serves hb
      have hm1 : 1 ≤ m := hm h.point
      have hstep : step s = .next (serve^[m] s) := by rw [step, hs]; exact hop
      by_cases hmn : m ≤ n
      · have hsplit : serve^[n] s = serve^[n - m] (serve^[m] s) := by
          rw [← Function.iterate_add_apply, Nat.sub_add_cancel hmn]
        obtain ⟨k, hk⟩ := ih (n - m) (by omega) (serve^[m] s) (inv_serve_iterate m h) (serve_iterate_schedule m hs)
          (hsplit ▸ hq)
        exact ⟨k + 1, _, hstep, hsplit ▸ hk⟩
      · have hpast : serve^[m] s = serve^[n] s := by
          rw [show m = m - n + n by omega, Function.iterate_add_apply]
          exact serve_iterate_of_quiescent (inv_serve_iterate n h) hq _
        exact ⟨1, _, hstep, hpast⟩

/-! ### What another source changes (R46, R84) -/

/-- The same state, reading another source. -/
def State.withSource (source : List Byte) (s : State) : State := { s with source := source }

@[simp] theorem State.withSource_micro (source : List Byte) (s : State) : (s.withSource source).micro = s.micro := rfl
@[simp] theorem State.withSource_busy (source : List Byte) (s : State) : (s.withSource source).busy = s.busy := rfl

/-- From `s`, `f` looks at no byte of the source that it does not consume: but for a TruncatedStream, it does the same
with any source that agrees on the bytes read when it is done. -/
structure LooksAtConsumed (source : List Byte) (f : State → State) (s : State) : Prop where
  forwards : s.pos ≤ (f s).pos
  same : (f s).errCode ≠ .truncatedStream → (∀ k, k < (f s).pos → source[k]? = s.source[k]?) →
    f (s.withSource source) = (f s).withSource source

/-- Work that reads nothing and does not move the read position. -/
theorem LooksAtConsumed.of_comm {source : List Byte} {f : State → State} {s : State} (hpos : (f s).pos = s.pos)
    (hf : f (s.withSource source) = (f s).withSource source) : LooksAtConsumed source f s :=
  ⟨hpos.ge, fun _ _ => hf⟩

/-- A read served at once: the end of the source, or the byte read and what is done with it (R31). -/
def readThen (k : Byte → State → State) (s : State) : State :=
  match s.nextByte? with
  | none => s.raise .truncatedStream
  | some b => k b s

/-- A read, `byte` done with the byte, and then `rest`: the byte looked at is the byte consumed. -/
theorem LooksAtConsumed.readThen {source : List Byte} {byte : Byte → State → State} {rest : State → State} {s : State}
    (hpos : ∀ b, (byte b s).pos = s.pos + 1) (hsource : ∀ b, (byte b s).source = s.source)
    (hbyte : ∀ b, byte b (s.withSource source) = (byte b s).withSource source)
    (hrest : ∀ b, LooksAtConsumed source rest (byte b s)) :
    LooksAtConsumed source (readThen fun b u => rest (byte b u)) s := by
  unfold Machine.readThen
  cases hb : s.nextByte? with
  | none => exact ⟨by simp [hb], by simp [hb]⟩
  | some b =>
    have hforwards : s.pos + 1 ≤ (rest (byte b s)).pos := hpos b ▸ (hrest b).forwards
    refine ⟨by simp only [hb]; omega, ?_⟩
    simp only [hb]
    intro herr hag
    have hnext : (s.withSource source).nextByte? = some b := (hag s.pos hforwards).trans hb
    simp only [hnext, hbyte]
    exact (hrest b).same herr (by rwa [hsource])

/-- Work that reads nothing, and then `rest`. -/
theorem LooksAtConsumed.comp {source : List Byte} {work rest : State → State} {s : State}
    (hpos : (work s).pos = s.pos) (hsource : (work s).source = s.source)
    (hwork : work (s.withSource source) = (work s).withSource source) (hrest : LooksAtConsumed source rest (work s)) :
    LooksAtConsumed source (rest ∘ work) s where
  forwards := hpos ▸ hrest.forwards
  same := fun herr hag => by
    rw [Function.comp_apply, hwork]
    exact hrest.same herr (hsource ▸ hag)

/-- Two functions that agree on the state under either source. -/
theorem LooksAtConsumed.congr {source : List Byte} {f g : State → State} {s : State} (hg : LooksAtConsumed source g s)
    (hs : f s = g s) (hw : f (s.withSource source) = g (s.withSource source)) : LooksAtConsumed source f s :=
  ⟨hs ▸ hg.forwards, by rw [hs, hw]; exact hg.same⟩

/-! ### The reads of each operation (R66, R74, R77, R80) -/

theorem headerByte_pos (k : Nat) (b : Byte) (s : State) : (headerByte k b s).pos = s.pos + 1 := by
  rw [headerByte_eq]; split_ifs <;> rfl

theorem headerByte_source (k : Nat) (b : Byte) (s : State) : (headerByte k b s).source = s.source := by
  rw [headerByte_eq]; split_ifs <;> rfl

theorem headerByte_withSource (source : List Byte) (k : Nat) (b : Byte) (s : State) :
    headerByte k b (s.withSource source) = (headerByte k b s).withSource source := by
  rw [headerByte_eq, headerByte_eq]; split_ifs <;> rfl

theorem headerBytes_succ {k : Nat} {s : State} (n : Nat) (hm : s.micro = .header k) :
    headerBytes (n + 1) s = readThen (fun b u => headerBytes n (headerByte k b u)) s := by
  rw [headerBytes, hm]; rfl

theorem headerBytes_of_not_header {s : State} (n : Nat) (hm : ∀ k, s.micro ≠ .header k) : headerBytes n s = s := by
  cases n with
  | zero => rfl
  | succ n => rw [headerBytes]; split <;> simp_all

theorem headerBytes_looksAtConsumed (source : List Byte) : ∀ (n : Nat) (s : State),
    LooksAtConsumed source (headerBytes n) s
  | 0, s => .of_comm rfl rfl
  | n + 1, s => by
    by_cases hm : ∃ k, s.micro = .header k
    · obtain ⟨k, hm⟩ := hm
      refine .congr (.readThen (headerByte_pos k · s) (headerByte_source k · s) (headerByte_withSource source k · s) ?_)
        (headerBytes_succ n hm) (headerBytes_succ n hm)
      exact fun b => headerBytes_looksAtConsumed source n (headerByte k b s)
    · rw [not_exists] at hm
      exact .congr (g := id) (.of_comm rfl rfl) (headerBytes_of_not_header _ hm) (headerBytes_of_not_header _ hm)

theorem primeBytes_succ {k : Nat} {s : State} (n : Nat) (hm : s.micro = .prime k) :
    primeBytes (n + 1) s = readThen (fun b u => primeBytes n (primeByte k b u)) s := by
  rw [primeBytes, hm]; rfl

theorem primeBytes_of_not_prime {s : State} (n : Nat) (hm : ∀ k, s.micro ≠ .prime k) : primeBytes n s = s := by
  cases n with
  | zero => rfl
  | succ n => rw [primeBytes]; split <;> simp_all

theorem primeBytes_looksAtConsumed (source : List Byte) : ∀ (n : Nat) (s : State),
    LooksAtConsumed source (primeBytes n) s
  | 0, s => .of_comm rfl rfl
  | n + 1, s => by
    by_cases hm : ∃ k, s.micro = .prime k
    · obtain ⟨k, hm⟩ := hm
      refine .congr (.readThen (byte := primeByte k) (fun _ => rfl) (fun _ => rfl) (fun _ => rfl) ?_) (primeBytes_succ n hm)
        (primeBytes_succ n hm)
      exact fun b => primeBytes_looksAtConsumed source n (primeByte k b s)
    · rw [not_exists] at hm
      exact .congr (g := id) (.of_comm rfl rfl) (primeBytes_of_not_prime _ hm) (primeBytes_of_not_prime _ hm)

theorem refill_looksAtConsumed (source : List Byte) : ∀ (n : Nat) (s : State), LooksAtConsumed source (refill n) s
  | 0, _ => .of_comm rfl rfl
  | n + 1, s =>
    .congr (.readThen (byte := State.readShift) (fun _ => rfl) (fun _ => rfl) (fun _ => rfl) fun b =>
      refill_looksAtConsumed source n (s.readShift b)) rfl rfl

/-- R79, R80: the commits of an offered pixel read nothing; its refill reads what it shifts in. -/
theorem finishRecord_looksAtConsumed (source : List Byte) (s : State) :
    LooksAtConsumed source State.finishRecord s := by
  cases hm : s.micro with
  | emit e =>
    refine .congr (.comp (work := State.commits (e.more + 1) e.pixel e.cls) ?_ ?_ ?_
      (refill_looksAtConsumed source e.cls.operandBytes _)) (by simp [State.finishRecord, hm])
      (by simp [State.finishRecord, hm])
    all_goals simp only [State.commits_eq, State.withSource]
  | refill n =>
    exact .congr (refill_looksAtConsumed source (n + 1) s) (by simp [State.finishRecord, hm])
      (by simp [State.finishRecord, hm])
  | idle | header | prime | boundary =>
    exact .congr (g := id) (.of_comm rfl rfl) (by simp [State.finishRecord, hm]) (by simp [State.finishRecord, hm])

theorem handle_withSource (source : List Byte) (i : Instr) (s : State) :
    handle i (s.withSource source) = (handle i s).withSource source := by
  cases i with
  | cachedIndex idx =>
    have hcache : (s.withSource source).cache = s.cache := rfl
    simp only [handle, handleCachedIndex, hcache]
    split <;> rfl
  | literalRGBA | literalRGB | smallDelta | lumaDelta | run | endMarker => rfl

/-- R78: a handler reads nothing. -/
theorem handle_pos_source (i : Instr) (s : State) : (handle i s).pos = s.pos ∧ (handle i s).source = s.source := by
  obtain ⟨idx, -, -, he⟩ | ⟨p, cls, more, -, he, -⟩ | ⟨-, he⟩ := handle_cases i s <;> rw [he] <;> exact ⟨rfl, rfl⟩

/-- R77: past the marker check, a record is the read of its tag's byte, its handler and the rest of it. -/
theorem streamStep_of_not_marker {s : State} (hw : s.window ≠ marker) :
    streamStep s = .next (readThen (fun b u => (tagByte b u).finishRecord) s) := by
  unfold streamStep readThen
  rw [if_neg hw]
  cases s.nextByte? with
  | none => rfl
  | some b => exact exec_eq _ _

/-- R46, R84: a whole operation looks at no byte that it does not consume. -/
theorem operate_looksAtConsumed (source : List Byte) (s : State) : ∃ f : State → State,
    operate s = .next (f s) ∧ operate (s.withSource source) = .next (f (s.withSource source)) ∧
    LooksAtConsumed source f s := by
  cases hb : s.busy with
  | false =>
    exact ⟨id, operate_quiescent hb, operate_quiescent (s := s.withSource source) hb, .of_comm rfl rfl⟩
  | true =>
    simp only [operate, State.withSource_busy, State.withSource_micro, hb, if_true]
    cases s.micro with
    | idle => exact ⟨id, rfl, rfl, .of_comm rfl rfl⟩
    | header k => exact ⟨_, rfl, rfl, headerBytes_looksAtConsumed source (14 - k) s⟩
    | prime k => exact ⟨_, rfl, rfl, primeBytes_looksAtConsumed source (8 - k) s⟩
    | emit e => exact ⟨_, rfl, rfl, finishRecord_looksAtConsumed source s⟩
    | refill n => exact ⟨_, rfl, rfl, finishRecord_looksAtConsumed source s⟩
    | boundary =>
      by_cases hw : s.window = marker
      · exact ⟨handleEndMarker, if_pos hw, if_pos hw, .of_comm rfl rfl⟩
      · refine ⟨_, streamStep_of_not_marker hw, streamStep_of_not_marker hw, .readThen (fun b => ?_) (fun b => ?_)
          (fun b => ?_) fun b => finishRecord_looksAtConsumed source _⟩
        · exact (handle_pos_source _ _).1
        · exact (handle_pos_source _ _).2
        · exact handle_withSource source _ (s.readShift b)

/-! ### The hash (R33, R34) -/

theorem cacheHash_val (p : Pixel) :
    (cacheHash p).val = (p.r.toNat * 3 + p.g.toNat * 5 + p.b.toNat * 7 + p.a.toNat * 11) % 64 := rfl

/-- R34: six bits are enough to keep a number modulo 64. -/
theorem toNat_ofNat_mod_64 {w : Nat} (hw : 6 ≤ w) (n : Nat) : (BitVec.ofNat w n).toNat % 64 = n % 64 := by
  rw [BitVec.toNat_ofNat]
  exact Nat.mod_mod_of_dvd n (pow_dvd_pow 2 hw)

/-! ### The window and its ring buffer (R38, R40) -/

theorem getElem_shift_last (b : Byte) (w : Window) : (shift b w)[7] = b := rfl

theorem getElem_shift (b : Byte) (w : Window) (k : Fin 7) : (shift b w)[k.val] = w[k.val + 1] := by
  fin_cases k <;> rfl

/-- R40: the last place of the ring is the slot just overwritten. -/
theorem RingWindow.at_push_last (b : Byte) (ring : RingWindow) : (ring.push b).at 7 = b := by
  have hslot : ring.head + 1 + 7 = ring.head := by rw [add_assoc]; exact add_zero _
  simp [RingWindow.at, RingWindow.push, hslot]

/-- R40: every other place moves with the head, and its slot is not the one overwritten. -/
theorem RingWindow.at_push (b : Byte) (ring : RingWindow) (k : Fin 7) :
    (ring.push b).at k.castSucc = ring.at k.succ := by
  have hslot : ring.head + 1 + k.castSucc = ring.head + k.succ := by
    rw [add_assoc, add_comm 1, Fin.coeSucc_eq_succ]
  have hother : ring.head ≠ ring.head + k.succ := fun h => k.succ_ne_zero (left_eq_add.mp h)
  simp only [RingWindow.at, RingWindow.push, hslot]
  exact Vector.getElem_set_ne _ _ (Fin.val_ne_of_ne hother)

/-! ### The ports and the edges (R32, R43, R79, R111) -/

/-- R43: the bytes of a packed word, the first in bits 31:24. -/
theorem extractLsb'_packed (b0 b1 b2 b3 : Byte) :
    (b0 ++ b1 ++ b2 ++ b3).extractLsb' 24 8 = b0 ∧ (b0 ++ b1 ++ b2 ++ b3).extractLsb' 16 8 = b1 ∧
    (b0 ++ b1 ++ b2 ++ b3).extractLsb' 8 8 = b2 ∧ (b0 ++ b1 ++ b2 ++ b3).extractLsb' 0 8 = b3 := by
  refine ⟨?_, ?_, ?_, BitVec.extractLsb'_append_eq_right⟩
  · rw [BitVec.extractLsb'_append_eq_of_le (by decide), BitVec.extractLsb'_append_eq_of_le (by decide)]
    exact BitVec.extractLsb'_append_eq_left
  · rw [BitVec.extractLsb'_append_eq_of_le (by decide), BitVec.extractLsb'_append_eq_of_le (by decide)]
    exact BitVec.extractLsb'_append_eq_right
  · rw [BitVec.extractLsb'_append_eq_of_le (by decide)]
    exact BitVec.extractLsb'_append_eq_right

/-- R28: `out_pixel` shows the offered pixel. -/
theorem outputs_outPixel {s : State} {p : Pixel} (h : s.offered = some p) :
    (s.outputs false).outPixel = some (packPixel p) := by
  simp [State.outputs, h]

/-- R111: a `start` that is taken. -/
theorem clockEdge_of_start {e : Edge} {source : List Byte} {s : State} (hrst : e.rst = false)
    (hstart : e.start = some source) (hq : s.quiescent) : clockEdge e s = s.begin source := by
  simp [clockEdge, hrst, show s.busy = false from hq, hstart]

/-- R32: an edge with `out_ready` while a pixel is offered. -/
theorem clockEdge_of_accept {e : Edge} {em : Emission} {s : State} (hb : s.busy = true) (hm : s.micro = .emit em)
    (hrst : e.rst = false) (hready : e.outReady = true) : clockEdge e s = acceptPixel em s := by
  simp [clockEdge, portEdge, hrst, hb, hm, hready]

/-- The program point after an accepted pixel: the next copy, the refill, or the boundary (R79, R80). -/
def Emission.next (e : Emission) : Micro :=
  if e.more ≠ 0 then .emit ⟨e.pixel, e.cls, e.more - 1⟩
  else if e.cls.operandBytes = 0 then .boundary else .refill (e.cls.operandBytes - 1)

theorem afterPixels_eq (n : Nat) : afterPixels n = if n = 0 then .boundary else .refill (n - 1) := by
  cases n <;> rfl

theorem acceptPixel_eq (e : Emission) (s : State) :
    acceptPixel e s = { s.commit e.pixel e.cls with micro := e.next } := by
  obtain ⟨p, cls, more⟩ := e
  cases more with
  | zero => simp [acceptPixel, Emission.next, afterPixels_eq]
  | succ n => rfl

/-! ### What an instruction leaves behind (R36, R76, R79, R89) -/

/-- The last pixel a record appends is the new `prev` (R79). -/
theorem Committed.sink_ends {s t : State} {p : Pixel} {more : Nat} {literal : Bool} (h : Committed s t p more literal) :
    t.sink = s.sink ++ List.replicate more p ++ [t.prev] := by
  rw [h.sink, h.prev, List.replicate_succ', List.append_assoc]

/-- A lookup of a populated slot commits the slot's pixel once (R89). -/
theorem exec_cachedIndex_of_hit {i : Fin 64} {p : Pixel} {s : State} (hp : cacheLookup i s.cache = some p) :
    ∃ t, exec (.cachedIndex i) s = .next t ∧ Committed s t p 0 false :=
  ⟨_, exec_eq _ _, by simp only [handle, handleCachedIndex, hp]; exact committed_offer p .cachedIndex 0 s⟩

/-- R36, R79: of the cache an instruction can change only the slot of the new `prev`. -/
theorem exec_cacheLookup_other {i : Instr} {s t : State} {k : Fin 64} (h : exec i s = .next t)
    (hk : k ≠ cacheHash t.prev) : cacheLookup k t.cache = cacheLookup k s.cache := by
  obtain ⟨-, rfl⟩ | ⟨_, -, -, rfl⟩ | ⟨-, p, more, hc⟩ := exec_cases h
  · rfl
  · rfl
  · rw [hc.cache]
    split
    · exact cacheLookup_cacheInsert_other _ (hc.prev ▸ hk)
    · rfl

/-- R79: what an instruction that commits and inserts leaves in the slot of the new `prev`. -/
theorem Committed.cacheLookup_prev {s t : State} {p : Pixel} {more : Nat} {literal : Bool}
    (h : Committed s t p more literal) (hins : s.policy = .all ∨ literal = true) :
    cacheLookup (cacheHash t.prev) t.cache = some t.prev := by
  rw [h.cache, if_pos hins, h.prev, cacheLookup_cacheInsert_same]

/-- R76, R89: the end marker and a failed lookup commit nothing. -/
theorem commitsPixel_eq_false {i : Instr} {s : State} :
    commitsPixel i s = false ↔ i = .endMarker ∨ ∃ idx, i = .cachedIndex idx ∧ cacheLookup idx s.cache = none := by
  cases i <;> simp [commitsPixel]

/-- An instruction that commits, commits copies of one pixel. -/
theorem exec_of_commitsPixel {i : Instr} {s t : State} (hi : commitsPixel i s = true) (h : exec i s = .next t) :
    ∃ p more, Committed s t p more (isLiteral i) := by
  obtain ⟨rfl, -⟩ | ⟨idx, rfl, hmiss, -⟩ | ⟨-, hc⟩ := exec_cases h
  · cases hi
  · simp [commitsPixel, hmiss] at hi
  · exact hc

/-- R76, R89: an instruction that commits nothing leaves the cache, the pixels, their count and `prev` alone. -/
theorem exec_of_not_commitsPixel {i : Instr} {s t : State} (hi : commitsPixel i s = false) (h : exec i s = .next t) :
    t.cache = s.cache ∧ t.sink = s.sink ∧ t.pixelCount = s.pixelCount ∧ t.prev = s.prev := by
  obtain ⟨-, rfl⟩ | ⟨_, -, -, rfl⟩ | ⟨hc, -⟩ := exec_cases h
  · exact ⟨rfl, rfl, rfl, rfl⟩
  · exact ⟨rfl, rfl, rfl, rfl⟩
  · rw [hi] at hc; cases hc

/-- R48, R72, R85, R106: no instruction writes the header registers or what the host holds; the pixels accepted stay, and
the read position never falls. -/
theorem exec_frame {i : Instr} {s t : State} (h : exec i s = .next t) :
    t.header = s.header ∧ t.hdrValid = s.hdrValid ∧ t.source = s.source ∧ t.schedule = s.schedule ∧
    t.policy = s.policy ∧ s.sink <+: t.sink ∧ s.pos ≤ t.pos := by
  obtain ⟨-, rfl⟩ | ⟨_, -, -, rfl⟩ | ⟨-, p, more, hc⟩ := exec_cases h
  · exact ⟨rfl, rfl, rfl, rfl, rfl, ⟨[], List.append_nil _⟩, le_refl _⟩
  · exact ⟨rfl, rfl, rfl, rfl, rfl, ⟨[], List.append_nil _⟩, le_refl _⟩
  · obtain ⟨hheader, hvalid⟩ := hc.header
    obtain ⟨hsource, hschedule, hpolicy⟩ := hc.host
    exact ⟨hheader, hvalid, hsource, hschedule, hpolicy, ⟨_, hc.sink.symm⟩, hc.pos⟩

end Sys2Proof.Machine

open Sys2Proof Sys2Proof.Machine

/-- Settles O11: a step's cache is the cache before it after some inserts, or an empty one. -/
theorem cacheInvariantKept : Obligations.CacheInvariantKept := by
  unfold Obligations.CacheInvariantKept
  refine ⟨Memory.wf_iff.mp Memory.wf_empty, fun s t hs h => ?_, fun cache i p => cacheInsert_of_cacheLookup⟩
  exact Memory.wf_iff.mp (Memory.wf_step (Memory.wf_iff.mpr hs) h)

/-- Settles O56: a dutiful schedule is a chain of served primitives, and whole operations reach that chain's end. -/
theorem scheduleIndependence : Obligations.ScheduleIndependence := by
  unfold Obligations.ScheduleIndependence
  intro s es h hs hd hq
  obtain ⟨n, hn⟩ := clockEdges_of_dutiful es s hd
  rw [hn] at hq ⊢
  exact stepsTo_of_serve_iterate n s h hs hq

/-- Settles O59: a step served at once is one whole operation, and it looks only at the bytes it consumes. -/
theorem noReadAhead : Obligations.NoReadAhead := by
  unfold Obligations.NoReadAhead
  intro s t source hs h herr hag
  obtain ⟨f, hf, hf', hlooks⟩ := operate_looksAtConsumed source s
  have hstep : step s = operate s := by rw [step, hs]
  have hstep' : step (s.withSource source) = operate (s.withSource source) := by
    rw [step, show (s.withSource source).schedule = [] from hs]
  rw [hstep, hf] at h
  cases h
  exact (hstep'.trans hf').trans (congrArg _ (hlooks.same herr hag))

/-- Settles O9: each truncation keeps the number modulo 64. -/
theorem hashAtAnyWidth : Obligations.HashAtAnyWidth := by
  unfold Obligations.HashAtAnyWidth
  refine ⟨fun wr wg wb wa w p hr hg hb ha hw => ?_, fun p => ?_⟩
  · have h1 := toNat_ofNat_mod_64 hr (p.r.toNat * 3)
    have h2 := toNat_ofNat_mod_64 hg (p.g.toNat * 5)
    have h3 := toNat_ofNat_mod_64 hb (p.b.toNat * 7)
    have h4 := toNat_ofNat_mod_64 ha (p.a.toNat * 11)
    rw [toNat_ofNat_mod_64 hw, cacheHash_val]
    omega
  · rw [cacheHash_val]
    simp [BitVec.toNat_add, BitVec.toNat_mul]

/-- Settles O12: no insert empties a slot, and the step is none of those that empty the cache. -/
theorem populatedSlotStays : Obligations.PopulatedSlotStays := by
  unfold Obligations.PopulatedSlotStays
  intro s t i h hi hedge
  refine step_cache_keeps (P := fun c => (cacheLookup i c).isSome = true)
    (fun p _ => cacheLookup_isSome_cacheInsert p) ?_ hi h
  rintro ⟨e, he, hrst | ⟨hquiet, hstart⟩⟩
  · exact absurd (hedge e he).1 (by simp [hrst])
  · exact absurd (hedge e he).2 (by simp [hquiet, hstart])

/-- Settles O14: the last place shows the byte pushed, and every other place what the place behind it showed. -/
theorem ringBufferShowsWindow : Obligations.RingBufferShowsWindow := by
  unfold Obligations.RingBufferShowsWindow
  intro b ring
  refine Vector.ext fun i hi => ?_
  rw [RingWindow.view, Vector.getElem_ofFn]
  by_cases h7 : i = 7
  · subst h7
    exact ring.at_push_last b
  · have hi7 : i < 7 := by omega
    rw [getElem_shift b ring.view ⟨i, hi7⟩, RingWindow.view, Vector.getElem_ofFn]
    exact ring.at_push b ⟨i, hi7⟩

/-- Settles O34: the frame of every instruction, and which of them commit nothing or insert nothing. -/
theorem recordFrame : Obligations.RecordFrame := by
  unfold Obligations.RecordFrame
  intro i s t h
  obtain ⟨hheader, hvalid, hsource, hschedule, hpolicy, hsink, hpos⟩ := exec_frame h
  exact ⟨hheader, hvalid, hsource, hschedule, hpolicy, hsink, hpos, fun k => exec_cacheLookup_other h,
    fun hi => exec_of_not_commitsPixel (commitsPixel_eq_false.mpr hi) h,
    fun hp hi => exec_cache_of_not_literal hp hi h⟩

/-- Settles O52: the record's insert fills the slot of the new `prev`, a lookup that hits commits the slot's pixel, and an
instruction whose last pixel hashes elsewhere leaves the slot alone. -/
theorem lookupSeesPreviousRecord : Obligations.LookupSeesPreviousRecord := by
  unfold Obligations.LookupSeesPreviousRecord
  intro i s t hins hi h
  obtain ⟨p, more, hc⟩ := exec_of_commitsPixel hi h
  refine ⟨⟨_, hc.sink_ends⟩, fun t' ht' => ?_, fun t' j v hfound hv hne => ?_⟩
  · obtain ⟨u, hu, hcu⟩ := exec_cachedIndex_of_hit (s := t') (ht' ▸ hc.cacheLookup_prev hins)
    exact ⟨u, hu, hcu.sink, hcu.prev, hcu.count⟩
  · rw [exec_cacheLookup_other hv hne.symm, hfound]

/-- Settles O8: the equation of the hash, at four channels. -/
theorem hashIsWeightedSum : Obligations.HashIsWeightedSum := by
  unfold Obligations.HashIsWeightedSum
  exact fun r g b a => cacheHash_val ⟨r, g, b, a⟩

/-- Settles O10: the lookups of the inserted slot and of any other. -/
theorem lookupAfterInsert : Obligations.LookupAfterInsert := by
  unfold Obligations.LookupAfterInsert
  intro p cache i
  split
  · next hi => rw [hi, cacheLookup_cacheInsert_same]
  · next hi => exact cacheLookup_cacheInsert_other cache hi

/-- Settles O13: the places of a shifted window. -/
theorem shiftMovesTowardsFront : Obligations.ShiftMovesTowardsFront := by
  unfold Obligations.ShiftMovesTowardsFront
  exact fun b w => ⟨getElem_shift_last b w, getElem_shift b w⟩

/-- Settles O45: a `start` that is taken keeps only the policy and the schedule. -/
theorem nothingCarriesOver : Obligations.NothingCarriesOver := by
  unfold Obligations.NothingCarriesOver
  intro e source s s' hrst hstart hq hq' hpolicy hschedule
  rw [clockEdge_of_start hrst hstart hq, clockEdge_of_start hrst hstart hq', State.begin, State.begin, hpolicy, hschedule]

/-- Settles O47: both ports are packed words of four bytes. -/
theorem portPacking : Obligations.PortPacking := by
  unfold Obligations.PortPacking
  refine ⟨fun p => extractLsb'_packed p.r p.g p.b p.a, fun s => ?_⟩
  obtain ⟨h0, h1, h2, h3⟩ := extractLsb'_packed s.header[0] s.header[1] s.header[2] s.header[3]
  exact ⟨h0, h1, h2, h3, rfl, fun p => outputs_outPixel⟩

/-- Settles O51: the edge accepts the pixel, and an accepted pixel is its commit and the next program point. -/
theorem acceptedPixelIsCommitted : Obligations.AcceptedPixelIsCommitted := by
  unfold Obligations.AcceptedPixelIsCommitted
  intro e s em hb hm hrst hready
  rw [clockEdge_of_accept hb hm hrst hready, acceptPixel_eq]
  simp only [State.commit, inserts_iff, Emission.next]

end

section
/-! PROOFS of the family 30_encoding.md: the tag ranges (R60, R61), decode and encode as inverses (R57 to R64), and the
length of a record as what a step reads (R58, R85). -/

namespace Sys2Proof

/-! ### Bytes as numbers -/

/-- A byte written by its value. -/
theorem ofInt_eq_byte {x : Int} {b : Byte} (h : x = b.toNat) : BitVec.ofInt 8 x = b := by
  subst h
  simp

/-- The value of a byte written as a number in range. -/
theorem byte_toNat_ofInt {x : Int} (h0 : 0 ≤ x) (h1 : x < 256) : ((BitVec.ofInt 8 x).toNat : Int) = x := by
  rw [BitVec.toNat_ofInt]
  omega

theorem byte_toNat_inj {t : Byte} {n : Nat} (hn : n < 256) : t = BitVec.ofNat 8 n ↔ t.toNat = n := by
  rw [← BitVec.toNat_inj, BitVec.toNat_ofNat, Nat.mod_eq_of_lt hn]

/-- A range of one value. -/
theorem byte_singleton_range {t : Byte} {n : Nat} (hn : n < 256) :
    n ≤ t.toNat ∧ t.toNat ≤ n ↔ t = BitVec.ofNat 8 n := by
  rw [byte_toNat_inj hn]
  omega

/-! ### The tag ranges (R60, R61) -/

/-- R60: the least tag of a class. -/
def TagClass.lowestTag : TagClass → Nat
  | .cachedIndex => 0x00
  | .smallDelta => 0x40
  | .lumaDelta => 0x80
  | .run => 0xC0
  | .literalRGB => 0xFE
  | .literalRGBA => 0xFF

/-- R60: the greatest tag of a class. -/
def TagClass.highestTag : TagClass → Nat
  | .cachedIndex => 0x3F
  | .smallDelta => 0x7F
  | .lumaDelta => 0xBF
  | .run => 0xFD
  | .literalRGB => 0xFE
  | .literalRGBA => 0xFF

/-- R60: a tag lies in the range of its class. -/
theorem classify_range (t : Byte) : (classify t).lowestTag ≤ t.toNat ∧ t.toNat ≤ (classify t).highestTag := by
  have hlt := t.isLt
  have htop : field t 7 6 = t.toNat / 64 := by simp only [field]; omega
  unfold classify
  rw [htop]
  split
  · next h => subst h; decide
  split
  · next h => subst h; decide
  next hRGB hRGBA =>
    rw [show t = 0xFE ↔ t.toNat = 0xFE from byte_toNat_inj (by decide)] at hRGB
    rw [show t = 0xFF ↔ t.toNat = 0xFF from byte_toNat_inj (by decide)] at hRGBA
    split
    · simp only [TagClass.lowestTag, TagClass.highestTag]; omega
    · simp only [TagClass.lowestTag, TagClass.highestTag]; omega
    · simp only [TagClass.lowestTag, TagClass.highestTag]; omega
    · next h0 h1 h2 =>
      simp only [imp_false] at h0 h1 h2
      simp only [TagClass.lowestTag, TagClass.highestTag]; omega

/-- R60: no two ranges meet. -/
theorem TagClass.eq_of_ranges_meet {c d : TagClass} {n : Nat} (hc : c.lowestTag ≤ n ∧ n ≤ c.highestTag)
    (hd : d.lowestTag ≤ n ∧ n ≤ d.highestTag) : c = d := by
  by_contra hne
  cases c <;> cases d <;> simp only [lowestTag, highestTag, not_true_eq_false] at hc hd hne <;> omega

/-- R60: the classifier is the table of tag ranges. -/
theorem classify_eq_iff {t : Byte} {c : TagClass} :
    classify t = c ↔ c.lowestTag ≤ t.toNat ∧ t.toNat ≤ c.highestTag :=
  ⟨fun h => h ▸ classify_range t, TagClass.eq_of_ranges_meet (classify_range t)⟩

theorem classify_eq_literalRGB {t : Byte} : classify t = .literalRGB ↔ t = 0xFE :=
  classify_eq_iff.trans (byte_singleton_range (by decide))

theorem classify_eq_literalRGBA {t : Byte} : classify t = .literalRGBA ↔ t = 0xFF :=
  classify_eq_iff.trans (byte_singleton_range (by decide))

/-! ### The record of a class, its fields in arithmetic (R59) -/

section
variable {t : Byte} (b1 b2 b3 b4 : Byte)

theorem decodeRecord_of_literalRGBA (h : classify t = .literalRGBA) :
    decodeRecord t b1 b2 b3 b4 = .literalRGBA b1 b2 b3 b4 := by
  rw [decodeRecord, h]

theorem decodeRecord_of_literalRGB (h : classify t = .literalRGB) :
    decodeRecord t b1 b2 b3 b4 = .literalRGB b1 b2 b3 := by
  rw [decodeRecord, h]

theorem decodeRecord_of_cachedIndex (h : classify t = .cachedIndex) :
    decodeRecord t b1 b2 b3 b4 = .cachedIndex (Fin.ofNat 64 (t.toNat % 64)) := by
  rw [decodeRecord, h, ← (field_arith t).1]

theorem decodeRecord_of_smallDelta (h : classify t = .smallDelta) :
    decodeRecord t b1 b2 b3 b4 =
      .smallDelta ((t.toNat / 16 % 4 : Nat) - 2) ((t.toNat / 4 % 4 : Nat) - 2) ((t.toNat % 4 : Nat) - 2) := by
  obtain ⟨-, h54, h32, h10, -, -⟩ := field_arith t
  rw [decodeRecord, h, ← h54, ← h32, ← h10]

theorem decodeRecord_of_lumaDelta (h : classify t = .lumaDelta) :
    decodeRecord t b1 b2 b3 b4 =
      .lumaDelta ((t.toNat % 64 : Nat) - 32) ((b1.toNat / 16 : Nat) - 8) ((b1.toNat % 16 : Nat) - 8) := by
  obtain ⟨-, -, -, -, h74, h30⟩ := field_arith b1
  rw [decodeRecord, h, ← (field_arith t).1, ← h74, ← h30]

theorem decodeRecord_of_run (h : classify t = .run) :
    decodeRecord t b1 b2 b3 b4 = .run (t.toNat % 64 + 1) := by
  rw [decodeRecord, h, ← (field_arith t).1]

end

/-! ### Encoding what was decoded (R57, R59, R62) -/

/-- R57, R59: a decoded record is spelled by its tag and the operand bytes of its class, and no bit of them is lost. -/
theorem encode_decodeRecord (t b1 b2 b3 b4 : Byte) :
    encode (decodeRecord t b1 b2 b3 b4) = t :: [b1, b2, b3, b4].take (classify t).operandBytes := by
  have hrange := classify_range t
  cases h : classify t with
  | literalRGBA =>
    obtain rfl := classify_eq_literalRGBA.mp h
    rfl
  | literalRGB =>
    obtain rfl := classify_eq_literalRGB.mp h
    rfl
  | cachedIndex =>
    have htag : BitVec.ofNat 8 (t.toNat % 64 % 64) = t := by
      simp only [h, TagClass.lowestTag, TagClass.highestTag] at hrange
      exact ((byte_toNat_inj (by omega)).mpr (by omega)).symm
    rw [decodeRecord_of_cachedIndex _ _ _ _ h]
    exact congrArg (fun b => [b]) htag
  | smallDelta =>
    simp only [h, TagClass.lowestTag, TagClass.highestTag] at hrange
    rw [decodeRecord_of_smallDelta _ _ _ _ h]
    exact congrArg (fun b => [b]) (ofInt_eq_byte (by omega))
  | lumaDelta =>
    simp only [h, TagClass.lowestTag, TagClass.highestTag] at hrange
    rw [decodeRecord_of_lumaDelta _ _ _ _ h]
    exact congrArg₂ (fun b c => [b, c]) (ofInt_eq_byte (by omega)) (ofInt_eq_byte (by omega))
  | run =>
    simp only [h, TagClass.lowestTag, TagClass.highestTag] at hrange
    rw [decodeRecord_of_run _ _ _ _ h]
    exact congrArg (fun b => [b]) (ofInt_eq_byte (by omega))

/-- R57, R62: a window begins with the bytes of what it decodes to. -/
theorem encode_decodeWindow_prefix (w : Window) : encode (decodeWindow w) <+: w.toList := by
  unfold decodeWindow
  split
  · next hw => rw [hw]; exact List.prefix_rfl
  · rw [encode_decodeRecord, window_toList, List.prefix_cons_inj]
    exact (List.take_prefix _ _).trans (List.prefix_append [w[1], w[2], w[3], w[4]] _)

/-! ### Decoding what was encoded (R57, R59, R64) -/

section
variable (b1 b2 b3 b4 : Byte)

theorem decodeRecord_encoded_cachedIndex (idx : Fin 64) :
    decodeRecord (BitVec.ofNat 8 idx.val) b1 b2 b3 b4 = .cachedIndex idx := by
  rw [decodeRecord_of_cachedIndex _ _ _ _ (Laws.RecordForm.classify_cachedIndex idx), BitVec.toNat_ofNat]
  congr 1
  ext
  simp only [Fin.val_ofNat]
  omega

theorem decodeRecord_encoded_smallDelta {dr dg db : Int} (h : (Instr.smallDelta dr dg db).wellFormed = true) :
    decodeRecord (BitVec.ofInt 8 (0x40 + (dr + 2) * 16 + (dg + 2) * 4 + (db + 2))) b1 b2 b3 b4 =
      .smallDelta dr dg db := by
  simp only [Instr.wellFormed, decide_eq_true_eq] at h
  have htag := byte_toNat_ofInt (x := 0x40 + (dr + 2) * 16 + (dg + 2) * 4 + (db + 2)) (by omega) (by omega)
  rw [decodeRecord_of_smallDelta _ _ _ _ (classify_eq_iff.mpr (by
    simp only [TagClass.lowestTag, TagClass.highestTag]; omega))]
  simp only [Instr.smallDelta.injEq]
  omega

theorem decodeRecord_encoded_lumaDelta {dg drdg dbdg : Int} (h : (Instr.lumaDelta dg drdg dbdg).wellFormed = true) :
    decodeRecord (BitVec.ofInt 8 (0x80 + (dg + 32))) (BitVec.ofInt 8 ((drdg + 8) * 16 + (dbdg + 8))) b2 b3 b4 =
      .lumaDelta dg drdg dbdg := by
  simp only [Instr.wellFormed, decide_eq_true_eq] at h
  have htag := byte_toNat_ofInt (x := 0x80 + (dg + 32)) (by omega) (by omega)
  have hoperand := byte_toNat_ofInt (x := (drdg + 8) * 16 + (dbdg + 8)) (by omega) (by omega)
  rw [decodeRecord_of_lumaDelta _ _ _ _ (classify_eq_iff.mpr (by
    simp only [TagClass.lowestTag, TagClass.highestTag]; omega))]
  simp only [Instr.lumaDelta.injEq]
  omega

theorem decodeRecord_encoded_run {n : Nat} (h : (Instr.run n).wellFormed = true) :
    decodeRecord (BitVec.ofInt 8 (0xC0 + ((n : Int) - 1))) b1 b2 b3 b4 = .run n := by
  simp only [Instr.wellFormed, decide_eq_true_eq] at h
  have htag := byte_toNat_ofInt (x := 0xC0 + ((n : Int) - 1)) (by omega) (by omega)
  rw [decodeRecord_of_run _ _ _ _ (classify_eq_iff.mpr (by
    simp only [TagClass.lowestTag, TagClass.highestTag]; omega))]
  simp only [Instr.run.injEq]
  omega

end

/-- R57, R59, R64: the record at the front of an encoding, whatever bytes follow it. -/
theorem decodeRecord_of_encode {i : Instr} {t : Byte} {operands : List Byte} (rest : List Byte)
    (hwf : i.wellFormed = true) (hne : i ≠ .endMarker) (h : encode i = t :: operands) :
    decodeRecord t ((operands ++ rest).getD 0 0) ((operands ++ rest).getD 1 0) ((operands ++ rest).getD 2 0)
      ((operands ++ rest).getD 3 0) = i := by
  cases i with
  | literalRGBA => cases h; exact decodeRecord_of_literalRGBA _ _ _ _ rfl
  | literalRGB => cases h; exact decodeRecord_of_literalRGB _ _ _ _ rfl
  | cachedIndex idx => cases h; exact decodeRecord_encoded_cachedIndex _ _ _ _ idx
  | smallDelta => cases h; exact decodeRecord_encoded_smallDelta _ _ _ _ hwf
  | lumaDelta => cases h; exact decodeRecord_encoded_lumaDelta _ _ _ hwf
  | run => cases h; exact decodeRecord_encoded_run _ _ _ _ hwf
  | endMarker => exact absurd rfl hne

/-- R57, R58: `RecordForm` of every instruction. -/
theorem recordForm (i : Instr) : Laws.RecordForm.Statement i := by
  cases i with
  | literalRGBA r g b a => exact Laws.RecordForm.literalRGBA r g b a
  | literalRGB r g b => exact Laws.RecordForm.literalRGB r g b
  | cachedIndex idx => exact Laws.RecordForm.cachedIndex idx
  | smallDelta dr dg db => exact Laws.RecordForm.smallDelta dr dg db
  | lumaDelta dg drdg dbdg => exact Laws.RecordForm.lumaDelta dg drdg dbdg
  | run count => exact Laws.RecordForm.run count
  | endMarker => exact Laws.RecordForm.endMarker

/-- R57, R58: as many bytes as the instruction is long. -/
theorem encode_length {i : Instr} (h : i.wellFormed = true) : (encode i).length = i.length := by
  obtain ⟨_, _, -, hlen, -⟩ := recordForm i h
  exact hlen

/-! ### Decoding a byte sequence (R55, R62, R76) -/

/-- R76, R83: a sequence that begins with the marker. -/
theorem decode_marker_append (rest : List Byte) : decode (marker.toList ++ rest) = .ok (.endMarker, rest) := rfl

/-- R58, R59: a sequence that does not begin with the marker and is long enough for the record of its tag. -/
theorem decode_record {t : Byte} {bs : List Byte} (hm : (t :: bs).take 8 ≠ marker.toList)
    (hlen : (classify t).operandBytes ≤ bs.length) :
    decode (t :: bs) = .ok (decodeRecord t (bs.getD 0 0) (bs.getD 1 0) (bs.getD 2 0) (bs.getD 3 0),
      bs.drop (classify t).operandBytes) := by
  rw [decode, if_neg hm, if_neg (by omega)]

/-- R58: the bytes that a decoded record leaves. -/
theorem decode_rest_of_record {t : Byte} {bs rem : List Byte} {i : Instr} (h : decode (t :: bs) = .ok (i, rem))
    (hi : i ≠ .endMarker) : rem = bs.drop (classify t).operandBytes := by
  rw [decode] at h
  split at h
  · cases h; exact absurd rfl hi
  split at h
  · cases h
  · cases h; rfl

/-- R64: the assembly of one instruction. -/
theorem assemble_instr (i : Instr) : assemble [.instr i] = if i.wellFormed = true then some (encode i) else none := by
  cases h : i.wellFormed <;> simp [assemble, AsmLine.assemble, h]

end Sys2Proof

namespace Sys2Proof.Machine

/-! ### What a record reads (R58, R80, R85) -/

/-- R80: a refill that raises nothing ends at an opcode boundary and has read all its bytes. -/
theorem refill_of_streaming {n : Nat} {s : State} (h : (refill n s).phase = .streaming) :
    (refill n s).micro = .boundary ∧ (refill n s).pos = s.pos + n ∧
    (refill n s).bytesConsumed = s.bytesConsumed + BitVec.ofNat 64 n := by
  by_cases hn : n ≤ (s.source.drop s.pos).length
  · have hlen : ((s.source.drop s.pos).take n).length = n := by rw [List.length_take, Nat.min_eq_left hn]
    rw [refill_eq_of_bytes hlen (List.take_prefix _ _)]
    simp [State.readShifts, hlen]
  · rw [refill_short n s (by omega)] at h
    cases h

/-- R58, R78: the class under which a handler offers its pixel gives the record's length. -/
theorem length_of_handle_offer {i : Instr} {s : State} {p : Pixel} {cls : TagClass} {more : Nat}
    (h : handle i s = s.offer p cls more) : i.length = cls.operandBytes + 1 := by
  have hm := congrArg State.micro h
  cases i with
  | literalRGBA | literalRGB | smallDelta | lumaDelta | run => cases hm; rfl
  | cachedIndex idx =>
    simp only [handle, handleCachedIndex] at hm
    split at hm <;> cases hm
    rfl
  | endMarker => cases hm

/-- R58: from the end of its tag fetch, a record that raises nothing reads all of its bytes but the tag. -/
theorem finishRecord_of_streaming {i : Instr} {s : State} (hi : i ≠ .endMarker)
    (h : (handle i s).finishRecord.phase = .streaming) :
    ∃ n, i.length = n + 1 ∧ (handle i s).finishRecord.micro = .boundary ∧
      (handle i s).finishRecord.pos = s.pos + n ∧
      (handle i s).finishRecord.bytesConsumed = s.bytesConsumed + BitVec.ofNat 64 n := by
  obtain ⟨-, -, -, he⟩ | ⟨p, cls, more, -, he, -⟩ | ⟨hend, -⟩ := handle_cases i s
  · rw [he] at h; cases h
  · rw [he, State.finishRecord_offer] at h ⊢
    obtain ⟨hmicro, hpos, hbytes⟩ := refill_of_streaming h
    rw [State.commits_eq] at hpos hbytes
    rw [State.commits_eq] at hmicro ⊢
    exact ⟨cls.operandBytes, length_of_handle_offer he, hmicro, hpos, hbytes⟩
  · exact absurd hend hi

/-- R75: the step at an opcode boundary. -/
theorem step_of_boundary {s : State} (h : s.AtBoundary) : step s = streamStep s := by
  have hbusy : s.busy = true := State.busy_iff.mpr (.inr h.phase)
  rw [step, h.schedule]
  simp only [operate, hbusy, h.micro, if_true]

end Sys2Proof.Machine

open Sys2Proof Sys2Proof.Machine

/-- Settles O1: the end marker is its own encoding, and a record is read back from its tag and operands. -/
theorem decodeEncodeRoundTrip : Obligations.DecodeEncodeRoundTrip := by
  unfold Obligations.DecodeEncodeRoundTrip
  intro i rest hwf hcase
  by_cases hi : i = .endMarker
  · subst hi
    exact decode_marker_append rest
  · have hmarker := hcase.resolve_left hi
    obtain ⟨t, operands, henc, -, hlen⟩ := recordForm i hwf
    rw [henc, List.cons_append] at hmarker ⊢
    rw [decode_record hmarker (by rw [← hlen hi, List.length_append]; omega), decodeRecord_of_encode rest hwf hi henc,
      ← hlen hi, List.drop_left]

/-- Settles O2: the marker spells itself, and a record is spelled by its tag and operands. -/
theorem encodeOfDecodedWindow : Obligations.EncodeOfDecodedWindow := by
  unfold Obligations.EncodeOfDecodedWindow
  exact fun w => ⟨decodeWindow_wellFormed w, encode_decodeWindow_prefix w⟩

/-- Settles O25: the tag fetch reads one byte, and the refill the operand bytes of the offered class. -/
theorem recordAdvancesByLength : Obligations.RecordAdvancesByLength := by
  unfold Obligations.RecordAdvancesByLength
  intro s t hs h hphase
  rw [step_of_boundary hs] at h
  by_cases hw : s.window = marker
  · rw [streamStep, if_pos hw] at h
    cases h; cases hphase
  rw [streamStep_of_not_marker hw, readThen] at h
  cases hb : s.nextByte? with
  | none => rw [hb] at h; cases h; cases hphase
  | some b =>
    rw [hb] at h
    cases h
    obtain ⟨n, hlen, hmicro, hpos, hbytes⟩ :=
      finishRecord_of_streaming (mt decodeWindow_eq_endMarker.mp hw) hphase
    refine ⟨hmicro, hpos.trans ?_, hbytes.trans ?_⟩
    · rw [hlen, State.readShift_pos]; omega
    · rw [hlen, State.readShift_bytesConsumed, BitVec.add_assoc, Nat.add_comm n, BitVec.ofNat_add]; rfl

/-- Settles O3: the ranges of the table, class by class. -/
theorem everyTagHasOneClass : Obligations.EveryTagHasOneClass := by
  unfold Obligations.EveryTagHasOneClass
  intro t
  exact ⟨classify_eq_iff.trans (and_iff_right (Nat.zero_le _)), classify_eq_iff, classify_eq_iff, classify_eq_iff,
    classify_eq_literalRGB, classify_eq_literalRGBA⟩

/-- Settles O4: both tests are bounds on the tag's value. -/
theorem parallelRunClassifier : Obligations.ParallelRunClassifier := by
  unfold Obligations.ParallelRunClassifier
  intro t
  have hlt := t.isLt
  have htop2 : t.extractLsb 7 6 = 0b11 ↔ t.toNat / 64 = 3 := by
    rw [← BitVec.toNat_inj, BitVec.extractLsb_toNat, Nat.shiftRight_eq_div_pow]
    change t.toNat / 2 ^ 6 % 2 ^ 2 = 3 ↔ _
    omega
  have htop7 : t.extractLsb 7 1 = 0b1111111 ↔ t.toNat / 2 = 127 := by
    rw [← BitVec.toNat_inj, BitVec.extractLsb_toNat, Nat.shiftRight_eq_div_pow]
    change t.toNat / 2 ^ 1 % 2 ^ 7 = 127 ↔ _
    omega
  refine ⟨?_, classify_eq_literalRGB.mpr, classify_eq_literalRGBA.mpr⟩
  rw [htop2, htop7, classify_eq_iff]
  simp only [TagClass.lowestTag, TagClass.highestTag]
  omega

/-- Settles O5: a decoded record drops its tag and the operand bytes of its class. -/
theorem recordLengthFollowsTag : Obligations.RecordLengthFollowsTag := by
  unfold Obligations.RecordLengthFollowsTag
  intro t rest rem i h hi
  rw [decode_rest_of_record h hi]
  cases classify t <;> rfl

/-- Settles O7: the assembler asks for well-formedness and gives the encoding. -/
theorem assemblerRefusesOutOfRange : Obligations.AssemblerRefusesOutOfRange := by
  unfold Obligations.AssemblerRefusesOutOfRange
  intro i
  rw [assemble_instr]
  cases hwf : i.wellFormed with
  | true => exact ⟨by simp, fun bs h => by cases h; exact encode_length hwf⟩
  | false => exact ⟨by simp, fun bs h => by cases h⟩

end

section
/-! PROOFS of the family 40_header.md: the header phase (R66 to R73), the priming (R74), and the header registers in
STREAMING (R72). -/

namespace Sys2Proof.Machine

/-! ### Header bytes in a row (R66, R68) -/

theorem validChannels_iff {b : Byte} : validChannels b = true ↔ b = 3 ∨ b = 4 := by
  rw [validChannels, decide_eq_true_iff]

theorem validColorspace_iff {b : Byte} : validColorspace b = true ↔ b = 0 ∨ b = 1 := by
  rw [validColorspace, decide_eq_true_iff]

/-- The header registers after the bytes `bs` have been stored from `H[0]` on. -/
def storedHeader (bs : List Byte) (header : HeaderBuffer) : HeaderBuffer :=
  Vector.ofFn fun k => (bs[k.val]?).getD header[k]

theorem storedHeader_of_getElem? {bs : List Byte} {header : HeaderBuffer} {b : Byte} {k : Nat} (hk : k < 14)
    (hb : bs[k]? = some b) : (storedHeader bs header)[k] = b := by
  simp [storedHeader, hb]

theorem storedHeader_of_length_le {bs : List Byte} {header : HeaderBuffer} {k : Nat} (hk : k < 14)
    (hl : bs.length ≤ k) : (storedHeader bs header)[k] = header[k] := by
  simp [storedHeader, List.getElem?_eq_none hl]

theorem getElem?_toList_append (h : Vector Byte 12) (bs : List Byte) (k : Fin 12) :
    (h.toList ++ bs)[k.val]? = some h[k] := by
  rw [List.getElem?_append_left (by simp)]
  simp

/-- One more byte goes to the first place not yet stored. -/
theorem storedHeader_concat (bs : List Byte) (b : Byte) (header : HeaderBuffer) :
    storedHeader (bs ++ [b]) header = (storedHeader bs header).setIfInBounds bs.length b := by
  refine Vector.ext fun k hk => ?_
  rw [Vector.getElem_setIfInBounds]
  split
  · next h => exact storedHeader_of_getElem? hk (by simp [← h])
  · next h =>
    by_cases hlt : k < bs.length
    · simp [storedHeader, List.getElem?_append_left hlt]
    · rw [storedHeader_of_length_le hk (by simp; omega), storedHeader_of_length_le hk (by omega)]

/-- The state after the header bytes `bs` have been read and stored from `H[0]` on, the next one to come. -/
def State.readHeader (bs : List Byte) (s : State) : State :=
  { s with
    header := storedHeader bs s.header, micro := .header bs.length
    bytesConsumed := s.bytesConsumed + BitVec.ofNat 64 bs.length, pos := s.pos + bs.length }

theorem State.readHeader_nil {s : State} (hm : s.micro = .header 0) : s.readHeader [] = s := by
  have hheader : storedHeader [] s.header = s.header :=
    Vector.ext fun k hk => storedHeader_of_length_le hk (Nat.zero_le k)
  simp [State.readHeader, hheader, ← hm]

/-- Storing the next header byte is having read one byte more. -/
theorem storeHeader_readHeader (bs : List Byte) (b : Byte) (phase : Phase) (err : ErrCode) (valid : Bool) (m : Micro)
    (s : State) :
    (s.readHeader bs).storeHeader bs.length b phase err valid m =
      { s.readHeader (bs ++ [b]) with phase := phase, errCode := err, hdrValid := valid, micro := m } := by
  simp [State.storeHeader, State.readHeader, State.consume, storedHeader_concat, BitVec.ofNat_add, BitVec.add_assoc,
    Nat.add_assoc]

theorem drop_readHeader {s : State} {bs rest : List Byte} (hd : s.source.drop s.pos = bs ++ rest) :
    (s.readHeader bs).source.drop (s.readHeader bs).pos = rest := by
  rw [State.readHeader, ← List.drop_drop, hd, List.drop_left]

/-- R66, R68: header bytes up to the colour-space byte are stored one after another, as long as the channels byte, where
it is among them, is legal. (`headerBytes_prefix` stops before the channels byte.) -/
theorem headerBytes_of_legal {s : State} {bs : List Byte} (hm : s.micro = .header 0) (hl : bs.length ≤ 13)
    (hlegal : ∀ b, bs[12]? = some b → validChannels b = true) (rest : List Byte)
    (hd : s.source.drop s.pos = bs ++ rest) (n : Nat) :
    headerBytes (n + bs.length) s = headerBytes n (s.readHeader bs) := by
  induction bs using List.reverseRecOn generalizing rest n with
  | nil => rw [State.readHeader_nil hm]; rfl
  | append_singleton bs b ih =>
    rw [List.length_append, List.length_singleton] at hl ⊢
    have hlegal' : ∀ c, bs[12]? = some c → validChannels c = true := fun c hc => by
      rw [List.getElem?_eq_none (by omega)] at hc; cases hc
    have hd' : s.source.drop s.pos = bs ++ (b :: rest) := by simpa using hd
    rw [show n + (bs.length + 1) = n + 1 + bs.length by omega, ih (by omega) hlegal' _ hd',
      headerBytes_cons rfl (drop_readHeader hd')]
    congr 1
    simp only [headerByte_eq, storeHeader_readHeader]
    split
    · next h12 => rw [if_pos (hlegal b (by simp [← h12]))]; simp [State.readHeader, h12]
    · rw [if_neg (by omega)]; simp [State.readHeader]

/-! ### The header registers of a whole header (R54, R67) -/

/-- The header registers show the fields that the header's bytes encode. -/
theorem hdr_of_storedHeader {m0 m1 m2 m3 : Byte} {width height : Word32} {channels colorspace : Byte}
    {header : HeaderBuffer} {t : State}
    (h : t.header = storedHeader (encodeHeader m0 m1 m2 m3 width height channels colorspace) header) :
    t.hdrMagic = m0 ++ m1 ++ m2 ++ m3 ∧ t.hdrWidth = width ∧ t.hdrHeight = height ∧
    t.hdrChannels = channels ∧ t.hdrColorspace = colorspace := by
  refine ⟨?_, ?_, ?_, ?_, ?_⟩
  · simp [State.hdrMagic, h, storedHeader, encodeHeader]
  · simp [State.hdrWidth, h, storedHeader, encodeHeader, bigEndian_append]
  · simp [State.hdrHeight, h, storedHeader, encodeHeader, bigEndian_append]
  · simp [State.hdrChannels, h, storedHeader, encodeHeader]
  · simp [State.hdrColorspace, h, storedHeader, encodeHeader]

/-! ### The steps of this family -/

theorem step_of_no_schedule {s : State} (h : s.schedule = []) : step s = operate s := by rw [step, h]

/-- R66: a decode that begins, its source beginning with the bytes `bs`: `n` header bytes come after them. -/
theorem step_of_header {s : State} {bs rest : List Byte} {n : Nat} (hp : s.phase = .awaitingHeader)
    (hm : s.micro = .header 0) (hpos : s.pos = 0) (hs : s.schedule = []) (hsrc : s.source = bs ++ rest)
    (hn : n + 1 + bs.length = 14) (hlegal : ∀ b, bs[12]? = some b → validChannels b = true) :
    step s = .next (headerBytes (n + 1) (s.readHeader bs)) ∧
    (s.readHeader bs).source.drop (s.readHeader bs).pos = rest := by
  have hbusy : s.busy = true := State.busy_iff.mpr (.inl hp)
  have hd : s.source.drop s.pos = bs ++ rest := by rw [hpos, List.drop_zero, hsrc]
  refine ⟨?_, drop_readHeader hd⟩
  rw [← headerBytes_of_legal hm (by omega) hlegal rest hd, hn, step_of_no_schedule hs, operate, if_pos hbusy, hm]

/-- R66: the header byte after the bytes `bs`, where it is there. -/
theorem step_of_header_byte {s : State} {bs rest : List Byte} {b : Byte} {n : Nat} (hp : s.phase = .awaitingHeader)
    (hm : s.micro = .header 0) (hpos : s.pos = 0) (hs : s.schedule = []) (hsrc : s.source = bs ++ b :: rest)
    (hn : n + 1 + bs.length = 14) (hlegal : ∀ b, bs[12]? = some b → validChannels b = true) :
    step s = .next (headerBytes n (headerByte bs.length b (s.readHeader bs))) := by
  obtain ⟨hstep, hrest⟩ := step_of_header hp hm hpos hs hsrc hn hlegal
  rw [hstep, headerBytes_cons rfl hrest]

/-- R69: a decode that begins, its channels byte legal: the colour-space byte decides. -/
theorem step_of_colorspace_byte {s : State} {bs rest : List Byte} {b : Byte} (hp : s.phase = .awaitingHeader)
    (hm : s.micro = .header 0) (hpos : s.pos = 0) (hs : s.schedule = []) (hsrc : s.source = bs ++ b :: rest)
    (hlen : bs.length = 13) (hlegal : ∀ b, bs[12]? = some b → validChannels b = true) :
    step s = .next
      (if validColorspace b then
        { s.readHeader (bs ++ [b]) with hdrValid := true, phase := .streaming, micro := .prime 0 }
      else (s.readHeader (bs ++ [b])).raise .malformedHeader) := by
  rw [step_of_header_byte (n := 0) hp hm hpos hs hsrc (by rw [hlen]) hlegal, headerBytes, headerByte_eq,
    if_neg (by omega), if_pos hlen]
  simp only [storeHeader_readHeader]
  rfl

/-- R74: the step of a decode whose priming begins. -/
theorem step_of_prime {s : State} (hp : s.phase = .streaming) (hm : s.micro = .prime 0) (hs : s.schedule = []) :
    step s = .next (primeBytes 8 s) := by
  have hbusy : s.busy = true := State.busy_iff.mpr (.inr hp)
  rw [step_of_no_schedule hs, operate, if_pos hbusy, hm]

/-! ### The priming (R74) -/

/-- A primed window holds the eight bytes read, whatever it held before. -/
theorem shifts_window (w v : Window) : shifts w.toList v = w := by
  rw [window_toList]
  exact window_eta w

theorem drop_readShifts {s : State} {bs rest : List Byte} (hd : s.source.drop s.pos = bs ++ rest) :
    (s.readShifts bs).source.drop (s.readShifts bs).pos = rest := by
  rw [State.readShifts, ← List.drop_drop, hd, List.drop_left]

/-- The priming at the end of the source (R97). -/
theorem primeBytes_short {s : State} {k n : Nat} (hm : s.micro = .prime k) (h : s.source.drop s.pos = []) :
    primeBytes (n + 1) s = s.raise .truncatedStream := by
  have hnone : s.nextByte? = none := State.nextByte?_eq_none.mpr (by simpa using h)
  rw [primeBytes_succ n hm, readThen, hnone]

/-! ### What other header registers change (R72) -/

/-- The same state, with other header registers. -/
def State.withHeader (header : HeaderBuffer) (s : State) : State := { s with header := header }

/-- A served read commutes with a change of the header registers where the work on its byte does. -/
theorem readThen_withHeader {header : HeaderBuffer} {k : Byte → State → State}
    (hk : ∀ b, Function.Commute (k b) (State.withHeader header)) :
    Function.Commute (readThen k) (State.withHeader header) := by
  intro s
  unfold readThen
  rw [show (s.withHeader header).nextByte? = s.nextByte? from rfl]
  cases s.nextByte? with
  | none => rfl
  | some b => exact hk b s

theorem readEdge_withHeader {header : HeaderBuffer} {k : Byte → State → State} (e : Edge)
    (hk : ∀ b, Function.Commute (k b) (State.withHeader header)) :
    Function.Commute (readEdge e k) (State.withHeader header) := by
  intro s
  unfold readEdge
  rw [show (s.withHeader header).nextByte? = s.nextByte? from rfl]
  cases e.inValid with
  | false => simp only; split <;> rfl
  | true =>
    cases s.nextByte? with
    | none => simp only; split <;> rfl
    | some b => exact hk b s

theorem primeBytes_withHeader (header : HeaderBuffer) : ∀ n : Nat,
    Function.Commute (primeBytes n) (State.withHeader header)
  | 0, _ => rfl
  | n + 1, s => by
    by_cases hm : ∃ k, s.micro = .prime k
    · obtain ⟨k, hm⟩ := hm
      rw [primeBytes_succ n hm, primeBytes_succ (s := s.withHeader header) n hm]
      exact readThen_withHeader (k := fun b u => primeBytes n (primeByte k b u))
        (fun b u => primeBytes_withHeader header n (primeByte k b u)) s
    · rw [not_exists] at hm
      rw [primeBytes_of_not_prime _ hm, primeBytes_of_not_prime (s := s.withHeader header) _ hm]

theorem refill_withHeader (header : HeaderBuffer) : ∀ n : Nat, Function.Commute (refill n) (State.withHeader header)
  | 0, _ => rfl
  | n + 1, s => readThen_withHeader (k := fun b u => refill n (u.readShift b))
      (fun b u => refill_withHeader header n (u.readShift b)) s

theorem finishRecord_withHeader (header : HeaderBuffer) :
    Function.Commute State.finishRecord (State.withHeader header) := by
  intro s
  unfold State.finishRecord
  rw [show (s.withHeader header).micro = s.micro from rfl]
  cases s.micro with
  | emit e =>
    have hcommits : (s.withHeader header).commits (e.more + 1) e.pixel e.cls =
        (s.commits (e.more + 1) e.pixel e.cls).withHeader header := by
      simp only [State.commits_eq, State.withHeader]
    simp only [hcommits]
    exact refill_withHeader header e.cls.operandBytes _
  | refill n => exact refill_withHeader header (n + 1) s
  | idle | header | prime | boundary => rfl

theorem handle_withHeader (header : HeaderBuffer) (i : Instr) :
    Function.Commute (handle i) (State.withHeader header) := by
  intro s
  cases i with
  | cachedIndex idx =>
    simp only [handle, handleCachedIndex, show (s.withHeader header).cache = s.cache from rfl]
    split <;> rfl
  | literalRGBA | literalRGB | smallDelta | lumaDelta | run | endMarker => rfl

theorem tagByte_withHeader (header : HeaderBuffer) (b : Byte) :
    Function.Commute (tagByte b) (State.withHeader header) :=
  fun s => handle_withHeader header (decodeWindow s.window) (s.readShift b)

theorem streamStep_withHeader (header : HeaderBuffer) (s : State) : ∃ t,
    streamStep s = .next t ∧ streamStep (s.withHeader header) = .next (t.withHeader header) := by
  by_cases hw : s.window = marker
  · exact ⟨handleEndMarker s, if_pos hw, if_pos hw⟩
  · refine ⟨_, streamStep_of_not_marker hw, ?_⟩
    rw [streamStep_of_not_marker (s := s.withHeader header) hw]
    exact congrArg _ (readThen_withHeader
      (fun b => (finishRecord_withHeader header).comp_left (tagByte_withHeader header b)) s)

/-- In STREAMING no header byte is being read. -/
theorem micro_ne_header_of_streaming {s : State} (hp : s.phase = .streaming) (hfit : s.pointFits = true) (k : Nat) :
    s.micro ≠ .header k := by
  intro hm
  simp [State.pointFits, hp, hm] at hfit

theorem operate_withHeader (header : HeaderBuffer) {s : State} (hm : ∀ k, s.micro ≠ .header k) : ∃ t,
    operate s = .next t ∧ operate (s.withHeader header) = .next (t.withHeader header) := by
  unfold operate
  rw [show (s.withHeader header).busy = s.busy from rfl, show (s.withHeader header).micro = s.micro from rfl]
  split
  · cases h : s.micro with
    | idle => exact ⟨s, rfl, rfl⟩
    | header k => exact absurd h (hm k)
    | prime k => exact ⟨_, rfl, congrArg _ (primeBytes_withHeader header (8 - k) s)⟩
    | boundary => exact streamStep_withHeader header s
    | emit e => exact ⟨_, rfl, congrArg _ (finishRecord_withHeader header s)⟩
    | refill n => exact ⟨_, rfl, congrArg _ (finishRecord_withHeader header s)⟩
  · exact ⟨s, rfl, rfl⟩

theorem clockEdge_of_busy {e : Edge} {s : State} (hrst : e.rst = false) (hb : s.busy = true) :
    clockEdge e s = portEdge e s := by
  simp [clockEdge, hrst, hb]

theorem portEdge_withHeader (header : HeaderBuffer) (e : Edge) {s : State} (hm : ∀ k, s.micro ≠ .header k) :
    portEdge e (s.withHeader header) = (portEdge e s).withHeader header := by
  unfold portEdge
  rw [show (s.withHeader header).micro = s.micro from rfl, show (s.withHeader header).window = s.window from rfl]
  cases h : s.micro with
  | idle => rfl
  | header k => exact absurd h (hm k)
  | prime k => exact readEdge_withHeader (k := primeByte k) e (fun _ _ => rfl) s
  | refill n => exact readEdge_withHeader (k := refillByte n) e (fun _ _ => rfl) s
  | emit em =>
    simp only [acceptPixel_eq]
    split <;> rfl
  | boundary =>
    simp only
    split
    · rfl
    · exact readEdge_withHeader e (tagByte_withHeader header) s

end Sys2Proof.Machine

open Sys2Proof Sys2Proof.Machine

/-- Settles O35: outside the header phase every operation commutes with a change of the header registers. -/
theorem headerChangesNoRecord : Obligations.HeaderChangesNoRecord := by
  unfold Obligations.HeaderChangesNoRecord
  intro s header hp hfit
  have hm := micro_ne_header_of_streaming hp hfit
  have hbusy : s.busy = true := State.busy_iff.mpr (.inr hp)
  refine ⟨fun t hs ht => ?_, fun e hrst => ?_⟩
  · obtain ⟨u, hu, hu'⟩ := operate_withHeader header hm
    rw [step_of_no_schedule hs, hu] at ht
    cases ht
    exact (step_of_no_schedule (s := s.withHeader header) hs).trans hu'
  · rw [clockEdge_of_busy hrst hbusy]
    exact (clockEdge_of_busy (s := s.withHeader header) hrst hbusy).trans (portEdge_withHeader header e hm)

/-- Settles O15: thirteen bytes with a legal channels byte are stored, and the colour-space byte is legal. -/
theorem headerAccepted : Obligations.HeaderAccepted := by
  unfold Obligations.HeaderAccepted
  intro s rest m0 m1 m2 m3 width height channels colorspace hp hm hpos hs hsrc hch hcs
  have hlegal : ∀ b, ((encodeHeader m0 m1 m2 m3 width height channels colorspace).take 13)[12]? = some b →
      validChannels b = true := fun b hb => by
    cases hb
    exact validChannels_iff.mpr hch
  have hstep := step_of_colorspace_byte hp hm hpos hs hsrc rfl hlegal
  rw [if_pos (validColorspace_iff.mpr hcs)] at hstep
  obtain ⟨hmagic, hwidth, hheight, hchannels, hcolorspace⟩ :=
    hdr_of_storedHeader (t := s.readHeader (encodeHeader m0 m1 m2 m3 width height channels colorspace)) rfl
  exact ⟨_, hstep, hmagic, hwidth, hheight, hchannels, hcolorspace, by simp [State.readHeader, hpos, encodeHeader]⟩

/-- Settles O16: twelve bytes are stored, and the channels byte is bad. -/
theorem badChannelsByte : Obligations.BadChannelsByte := by
  unfold Obligations.BadChannelsByte
  intro s h channels rest hp hm hpos hs hsrc h3 h4
  have hbad : ¬ validChannels channels = true := by rw [validChannels_iff]; exact not_or.mpr ⟨h3, h4⟩
  have hlen : h.toList.length = 12 := h.length_toList
  have hstep := step_of_header_byte (n := 1) hp hm hpos hs hsrc (by rw [hlen]) (by simp)
  rw [headerByte_eq, if_pos hlen, if_neg hbad, storeHeader_readHeader, headerBytes_of_not_header 1 (by simp)] at hstep
  refine ⟨_, hstep, fun k => ?_, ?_, ?_, ?_⟩
  · exact storedHeader_of_getElem? _ (getElem?_toList_append h _ k)
  · exact storedHeader_of_getElem? _ (by simp)
  · exact storedHeader_of_length_le _ (by simp)
  · simp [State.readHeader, hpos]

/-- Settles O17: thirteen bytes with a legal channels byte are stored, and the colour-space byte is bad. -/
theorem badColorspaceByte : Obligations.BadColorspaceByte := by
  unfold Obligations.BadColorspaceByte
  intro s h channels colorspace rest hp hm hpos hs hsrc hch h0 h1
  have hbad : ¬ validColorspace colorspace = true := by rw [validColorspace_iff]; exact not_or.mpr ⟨h0, h1⟩
  have hlegal : ∀ b, (h.toList ++ [channels])[12]? = some b → validChannels b = true := fun b hb => by
    obtain rfl : channels = b := by simpa using hb
    exact validChannels_iff.mpr hch
  have hsrc' : s.source = (h.toList ++ [channels]) ++ colorspace :: rest := by rw [hsrc, List.append_assoc]; rfl
  have hstep := step_of_colorspace_byte hp hm hpos hs hsrc' (by simp) hlegal
  rw [if_neg hbad, List.append_assoc] at hstep
  refine ⟨_, hstep, fun k => ?_, ?_, ?_, ?_⟩
  · exact storedHeader_of_getElem? _ (getElem?_toList_append h _ k)
  · exact storedHeader_of_getElem? _ (by simp)
  · exact storedHeader_of_getElem? _ (by simp)
  · simp [State.readHeader, State.raise, hpos]

/-- Settles O18: the bytes there are are stored, and the next read finds none. -/
theorem truncatedHeader : Obligations.TruncatedHeader := by
  unfold Obligations.TruncatedHeader
  intro s hp hm hpos hs hlen hch
  have hlegal : ∀ b, s.source[12]? = some b → validChannels b = true := fun b hb =>
    validChannels_iff.mpr (hch b hb)
  obtain ⟨hstep, hrest⟩ := step_of_header (n := 13 - s.source.length) hp hm hpos hs (List.append_nil _).symm (by omega)
    hlegal
  rw [headerBytes_short rfl hrest] at hstep
  refine ⟨_, hstep, fun k => ?_, by simp [State.readHeader, State.raise, hpos]⟩
  split
  · next hk => exact storedHeader_of_getElem? k.isLt (List.getElem?_eq_getElem hk)
  · next hk => exact storedHeader_of_length_le k.isLt (by omega)

/-- Settles O19: a run of eight priming bytes, which fill the window. -/
theorem primingReadsEight : Obligations.PrimingReadsEight := by
  unfold Obligations.PrimingReadsEight
  rintro s w hp hm hs ⟨rest, hd⟩
  have hlen : w.toList.length = 8 := w.length_toList
  have hne : w.toList ≠ [] := List.ne_nil_of_length_pos (by omega)
  have hprime := primeBytes_prefix w.toList 0 0 s rest hm hd.symm (by omega)
  rw [hlen, if_pos ⟨rfl, hne⟩] at hprime
  rw [step_of_prime hp hm hs, hprime]
  simp only [State.readShifts, shifts_window, hlen]
  rfl

/-- Settles O20: a run of fewer than eight priming bytes, and the next read finds none. -/
theorem truncatedPriming : Obligations.TruncatedPriming := by
  unfold Obligations.TruncatedPriming
  intro s bs hp hm hs hd hl
  have hd' : s.source.drop s.pos = bs ++ [] := by rw [hd, List.append_nil]
  have hprime := primeBytes_prefix bs 0 (7 - bs.length + 1) s [] hm hd' (by omega)
  rw [show bs.length + (7 - bs.length + 1) = 8 by omega, if_neg (by omega)] at hprime
  rw [step_of_prime hp hm hs, hprime]
  exact congrArg _ (primeBytes_short rfl (drop_readShifts hd'))

end

section
/-! PROOFS of the family 41_engine.md: the marker check, the tag fetch and the record (R75 to R77), the end of a decode
(R76, R81, R82, R102), the offset of a failed lookup (R98), and the bound on its pixels (R82). -/

namespace Sys2Proof.Machine

/-! ### The opcode boundary (R75 to R77) -/

/-- R76: the step at a boundary whose window is the marker. -/
theorem step_of_marker {s : State} (h : s.AtBoundary) (hw : s.window = marker) : step s = exec .endMarker s := by
  rw [step_of_boundary h, streamStep, if_pos hw]

/-- R77: the step at any other boundary, where the tag fetch finds a byte. -/
theorem step_of_record {s : State} {b : Byte} (h : s.AtBoundary) (hw : s.window ≠ marker) (hb : s.nextByte? = some b) :
    step s = exec (decodeWindow s.window) (s.readShift b) := by
  rw [step_of_boundary h, streamStep, if_neg hw, hb]

/-- R77: the step at any other boundary, where the tag fetch finds no byte. -/
theorem step_of_exhausted {s : State} (h : s.AtBoundary) (hw : s.window ≠ marker) (hb : s.nextByte? = none) :
    step s = .next (s.raise .truncatedStream) := by
  rw [step_of_boundary h, streamStep, if_neg hw, hb]

theorem decodeWindow_of_ne_marker {w : Window} (hw : w ≠ marker) :
    decodeWindow w = decodeRecord w[0] w[1] w[2] w[3] w[4] := if_neg hw

/-- R59: the slot that a CachedIndex names is the low six bits of its tag. -/
theorem decodeWindow_eq_cachedIndex {w : Window} {idx : Fin 64} (h : decodeWindow w = .cachedIndex idx) :
    idx.val = w[0].toNat % 64 := by
  have hw : w ≠ marker := fun hw => by rw [decodeWindow_eq_endMarker.mpr hw] at h; cases h
  rw [decodeWindow_of_ne_marker hw, decodeRecord] at h
  split at h <;> cases h
  rw [Fin.val_ofNat, (field_arith _).1, Nat.mod_mod]

/-! ### A loaded word (notes/assumptions/9.md) -/

theorem withFetchWord_atBoundary (s : State) (nbits w : Nat) : (s.withFetchWord nbits w).AtBoundary := ⟨rfl, rfl, rfl⟩

/-- The load puts zero bytes after the word. -/
theorem withFetchWord_nextByte? (s : State) (nbits w : Nat) : (s.withFetchWord nbits w).nextByte? = some 0x00 := by
  have hlen : (loadedHeader.toList ++ (tableWindow nbits w).toList).length = 22 := by simp
  exact (List.getElem?_append_right hlen.le).trans (by rw [hlen]; rfl)

/-- A table word decodes to what its window holds. -/
theorem decodeWindow_of_decodeTableWord {nbits w : Nat} {i : Instr} (h : decodeTableWord nbits w = some i) :
    decodeWindow (tableWindow nbits w) = i := by
  obtain ⟨rest, hrest⟩ := decode_window (tableWindow nbits w)
  rw [decodeTableWord, hrest] at h
  exact Option.some.inj h

/-! ### Where a whole operation ends (R66 to R80) -/

/-- How served reads that begin in `s` end in `t`: at the end of the source, or at the next opcode boundary. -/
def ReadsEnd (s t : State) : Prop :=
  t.phase = .error ∧ t.errCode = .truncatedStream ∨ t.phase = s.phase ∧ t.errCode = s.errCode ∧ t.micro = .boundary

theorem readsEnd_raise {s u : State} : ReadsEnd s (u.raise .truncatedStream) := .inl ⟨rfl, rfl⟩

theorem refill_ends : ∀ (n : Nat) (s : State), ReadsEnd s (refill n s)
  | 0, _ => .inr ⟨rfl, rfl, rfl⟩
  | n + 1, s => by
    rw [refill]
    split
    · exact readsEnd_raise
    · next b _ => exact refill_ends n (s.readShift b)

/-- R79, R80: the commits of an offered pixel, and the refill after them. -/
theorem refill_commits_ends (n more : Nat) (p : Pixel) (cls : TagClass) (s : State) :
    ReadsEnd s (refill n (s.commits (more + 1) p cls)) := by
  have hend := refill_ends n (s.commits (more + 1) p cls)
  rw [State.commits_eq] at hend ⊢
  exact hend

/-- R74: the rest of the priming. -/
theorem primeBytes_ends : ∀ (n k : Nat) (s : State), s.micro = .prime k → k < 8 → n = 8 - k →
    ReadsEnd s (primeBytes n s)
  | 0, k, s, hm, hk, hn => by omega
  | n + 1, k, s, hm, hk, hn => by
    rw [primeBytes_succ n hm, readThen]
    cases s.nextByte? with
    | none => exact readsEnd_raise
    | some b =>
      by_cases h7 : k = 7
      · obtain rfl : n = 0 := by omega
        exact .inr ⟨rfl, rfl, by simp [primeBytes, primeByte, h7]⟩
      · exact primeBytes_ends n (k + 1) (primeByte k b s) (by simp [primeByte, h7]) (by omega) (by omega)

/-- R66 to R69: after a header byte comes the next one, the priming after the last, or ERROR. -/
theorem headerByte_cases (k : Nat) (b : Byte) (s : State) :
    (headerByte k b s).micro = .header (k + 1) ∧ (headerByte k b s).phase = s.phase ∧ k ≠ 13 ∨
    (headerByte k b s).micro = .prime 0 ∧ (headerByte k b s).phase = .streaming ∨
    (headerByte k b s).micro = .idle ∧ (headerByte k b s).phase = .error := by
  rw [headerByte_eq]
  split
  · next h12 =>
    split
    · exact .inl ⟨by simp [State.storeHeader, h12], rfl, by omega⟩
    · exact .inr (.inr ⟨rfl, rfl⟩)
  · split
    · split
      · exact .inr (.inl ⟨rfl, rfl⟩)
      · exact .inr (.inr ⟨rfl, rfl⟩)
    · next h13 => exact .inl ⟨rfl, rfl, h13⟩

/-- R66, R73: the rest of the header phase. -/
theorem headerBytes_ends : ∀ (n k : Nat) (s : State), s.micro = .header k → k < 14 → n = 14 - k →
    (headerBytes n s).phase = .error ∨ (headerBytes n s).phase = .streaming ∧ (headerBytes n s).micro = .prime 0
  | 0, k, s, hm, hk, hn => by omega
  | n + 1, k, s, hm, hk, hn => by
    rw [headerBytes_succ n hm, readThen]
    cases s.nextByte? with
    | none => exact .inl rfl
    | some b =>
      obtain ⟨hmicro, -, h13⟩ | hends := headerByte_cases k b s
      · exact headerBytes_ends n (k + 1) (headerByte k b s) hmicro (by omega) (by omega)
      · have hstop : ∀ j, (headerByte k b s).micro ≠ .header j := by
          rcases hends with ⟨hmicro, -⟩ | ⟨hmicro, -⟩ <;> simp [hmicro]
        simp only [headerBytes_of_not_header n hstop]
        exact hends.symm.imp And.right And.symm

/-- R75 to R80: what a whole operation from an opcode boundary does: it ends the decode, fails a lookup, or reads on. -/
theorem streamStep_cases {s t : State} (h : streamStep s = .next t) :
    (s.window = marker ∧ t = handleEndMarker s) ∨
    (∃ b idx, decodeWindow s.window = .cachedIndex idx ∧ cacheLookup idx s.cache = none ∧
      t = (s.readShift b).raise .invalidCacheReference) ∨
    (ReadsEnd s t ∧ (t.phase ≠ .error → s.pos < t.pos)) := by
  by_cases hw : s.window = marker
  · rw [streamStep, if_pos hw] at h
    cases h
    exact .inl ⟨hw, rfl⟩
  rw [streamStep, if_neg hw] at h
  cases hb : s.nextByte? with
  | none =>
    rw [hb] at h
    cases h
    exact .inr (.inr ⟨readsEnd_raise, fun hp => absurd rfl hp⟩)
  | some b =>
    rw [hb] at h
    simp only at h
    obtain ⟨-, -, -, -, -, -, hpos⟩ := exec_frame h
    rw [exec_eq] at h
    cases h
    obtain ⟨idx, hi, hmiss, he⟩ | ⟨p, cls, more, -, he, -⟩ | ⟨hend, -⟩ :=
      handle_cases (decodeWindow s.window) (s.readShift b)
    · rw [he]
      exact .inr (.inl ⟨b, idx, hi, hmiss, rfl⟩)
    · refine .inr (.inr ⟨?_, fun _ => hpos⟩)
      rw [he, State.finishRecord_offer]
      exact refill_commits_ends cls.operandBytes more p cls (s.readShift b)
    · exact absurd (decodeWindow_eq_endMarker.mp hend) hw

/-- R27: an opcode boundary belongs to STREAMING. -/
theorem streaming_of_boundary {s : State} (hfit : s.pointFits = true) (hm : s.micro = .boundary) :
    s.phase = .streaming := by
  cases hp : s.phase <;> simp [State.pointFits, hp, hm] at hfit ⊢

/-- R66: a whole operation of the header phase. -/
theorem step_of_awaiting {s t : State} (hfit : s.pointFits = true) (hp : s.phase = .awaitingHeader)
    (hs : s.schedule = []) (h : step s = .next t) : t.phase = .error ∨ t.phase = .streaming ∧ t.micro = .prime 0 := by
  have hb : s.busy = true := State.busy_iff.mpr (.inl hp)
  rw [step_of_no_schedule hs, operate, if_pos hb] at h
  cases hm : s.micro with
  | header k =>
    rw [hm] at h
    cases h
    obtain ⟨hk, -⟩ : k < 14 ∧ s.pos = k := by simpa [State.pointFits, hp, hm] using hfit
    exact headerBytes_ends _ k s hm hk rfl
  | idle | prime | boundary | emit | refill => simp [State.pointFits, hp, hm] at hfit

/-- R74, R79, R80: a whole operation of STREAMING, but for one from a boundary. -/
theorem step_of_streaming {s t : State} (hfit : s.pointFits = true) (hp : s.phase = .streaming)
    (hm : s.micro ≠ .boundary) (hs : s.schedule = []) (h : step s = .next t) : ReadsEnd s t := by
  have hb : s.busy = true := State.busy_iff.mpr (.inr hp)
  rw [step_of_no_schedule hs, operate, if_pos hb] at h
  cases hm' : s.micro with
  | prime k =>
    rw [hm'] at h
    cases h
    obtain ⟨hk, -⟩ : k < 8 ∧ s.pos = 14 + k := by simpa [State.pointFits, hp, hm'] using hfit
    exact primeBytes_ends _ k s hm' hk rfl
  | emit e =>
    rw [hm'] at h
    cases h
    rw [State.finishRecord, hm']
    exact refill_commits_ends _ _ _ _ _
  | refill n =>
    rw [hm'] at h
    cases h
    rw [State.finishRecord, hm']
    exact refill_ends _ _
  | boundary => exact absurd hm' hm
  | idle | header => simp [State.pointFits, hp, hm'] at hfit

/-! ### A decode ends (R77, R82) -/

/-- A bound on the whole operations that a decode still takes. -/
def State.stepsLeft (s : State) : Nat :=
  if s.busy then s.source.length - s.pos + (if s.micro = .boundary then 1 else 2) else 0

theorem State.stepsLeft_le (s : State) :
    s.stepsLeft ≤ s.source.length - s.pos + 2 ∧ (s.micro = .boundary → s.stepsLeft ≤ s.source.length - s.pos + 1) := by
  unfold State.stepsLeft
  split_ifs with hb hm
  · exact ⟨by omega, fun _ => le_refl _⟩
  · exact ⟨le_refl _, fun h => absurd h hm⟩
  · exact ⟨Nat.zero_le _, fun _ => Nat.zero_le _⟩

/-- Steps with no edge scheduled are chains of served primitives. -/
theorem stepsTo_serves : ∀ (k : Nat) {s t : State}, s.schedule = [] → stepsTo k s t → ∃ m, t = serve^[m] s
  | 0, _, _, _, rfl => ⟨0, rfl⟩
  | k + 1, s, t, hs, ⟨u, hu, ht⟩ => by
    obtain ⟨m, rfl⟩ : ∃ m, u = serve^[m] s := by
      obtain ⟨e, es, hsch, -⟩ | ⟨-, ⟨-, hm⟩ | ⟨-, rfl⟩⟩ := step_cases hu
      · rw [hs] at hsch; cases hsch
      · exact hm
      · exact ⟨0, rfl⟩
    obtain ⟨n, rfl⟩ := stepsTo_serves k (serve_iterate_schedule m hs) ht
    exact ⟨n + m, (Function.iterate_add_apply serve n m s).symm⟩

/-- What no whole operation changes of what the host holds. -/
theorem step_host {s t : State} (hs : s.schedule = []) (h : step s = .next t) :
    t.source = s.source ∧ t.schedule = [] ∧ s.pos ≤ t.pos := by
  obtain ⟨m, rfl⟩ := stepsTo_serves 1 hs ⟨t, h, rfl⟩
  refine serve_iterate_keeps (P := fun u => u.source = s.source ∧ u.schedule = [] ∧ s.pos ≤ u.pos) ?_ m s
    ⟨rfl, hs, le_refl _⟩
  rintro u ⟨hsource, hschedule, hpos⟩
  obtain ⟨hsource', hpos', hschedule'⟩ := serve_source u
  exact ⟨hsource'.trans hsource, hschedule'.trans hschedule, hpos.trans hpos'⟩

/-- R77, R82: every whole operation of a decode leaves fewer of them: it ends the decode, or reads a byte, or reaches a
boundary. -/
theorem stepsLeft_step_lt {s t : State} (h : s.Inv) (hb : s.busy = true) (hs : s.schedule = [])
    (ht : step s = .next t) : t.stepsLeft < s.stepsLeft := by
  obtain ⟨hsource, -, hpos⟩ := step_host hs ht
  have hinv : t.Inv := h.step ht
  have hwithin := hinv.within
  unfold State.stepsLeft
  rw [hsource] at hwithin ⊢
  rw [if_pos hb]
  cases hbt : t.busy with
  | false => simp only [Bool.false_eq_true, if_false]; split <;> omega
  | true =>
    obtain ⟨hdone, herr⟩ : t.phase ≠ .done ∧ t.phase ≠ .error := by
      rcases State.busy_iff.mp hbt with hp | hp <;> simp [hp]
    rw [if_pos rfl]
    rcases State.busy_iff.mp hb with hp | hp
    · obtain ⟨k, hm, hk, hposk⟩ := h.awaiting hp
      obtain ⟨hpt, hmt⟩ := (step_of_awaiting h.point hp hs ht).resolve_left herr
      have h14 : 14 ≤ t.pos := by obtain ⟨j, -, -, hj⟩ | ⟨h22, -⟩ := hinv.streaming hpt <;> omega
      simp only [hm, hmt, reduceCtorEq, if_false]
      omega
    · by_cases hm : s.micro = .boundary
      · rw [step_of_boundary ⟨hp, hm, hs⟩] at ht
        obtain ⟨-, rfl⟩ | ⟨b, idx, -, -, rfl⟩ | ⟨hend, hread⟩ := streamStep_cases ht
        · exact absurd rfl hdone
        · exact absurd rfl herr
        · obtain ⟨-, -, hmt⟩ := hend.resolve_left fun he => herr he.1
          have hread := hread herr
          rw [if_pos hm, if_pos hmt]
          omega
      · obtain ⟨-, -, hmt⟩ := (step_of_streaming h.point hp hm hs ht).resolve_left fun he => herr he.1
        rw [if_neg hm, if_pos hmt]
        omega

/-- R82: a served decode ends, within the whole operations it has left. -/
theorem decode_ends (s : State) (h : s.Inv) (hs : s.schedule = []) :
    ∃ k t, stepsTo k s t ∧ t.quiescent ∧ k ≤ s.stepsLeft := by
  induction hn : s.stepsLeft using Nat.strong_induction_on generalizing s with
  | _ n ih =>
    cases hb : s.busy with
    | false => exact ⟨0, s, rfl, hb, Nat.zero_le n⟩
    | true =>
      obtain ⟨m, hm, -⟩ := operate_serves hb
      have hstep : step s = .next (serve^[m] s) := (step_of_no_schedule hs).trans hm
      have hlt := stepsLeft_step_lt h hb hs hstep
      obtain ⟨k, t, hk, hq, hle⟩ := ih _ (hn ▸ hlt) _ (h.step hstep) (step_host hs hstep).2.1 rfl
      exact ⟨k + 1, t, ⟨_, hstep, hk⟩, hq, by omega⟩

/-! ### The pixels of a decode (R82, R93) -/

/-- The pixels of the record in progress that are still to be accepted (R27). -/
def Micro.pixelsLeft : Micro → Nat
  | .emit e => e.more + 1
  | _ => 0

/-- A bound on the pixels of the decode: those accepted, those of the record in progress, and 62 for each byte left. -/
def State.pixelBound (s : State) : Nat :=
  s.sink.length + s.micro.pixelsLeft + 62 * (s.source.length - s.pos)

theorem State.pixelBound_boundary {s : State} (hm : s.micro = .boundary) :
    s.pixelBound = s.sink.length + 62 * (s.source.length - s.pos) := by
  rw [State.pixelBound, hm]; rfl

theorem pixelsLeft_afterPixels (n : Nat) : (afterPixels n).pixelsLeft = 0 := by cases n <;> rfl

/-- R66: no pixel is accepted or offered in the header phase. -/
theorem headerByte_pixels (k : Nat) (b : Byte) (s : State) :
    (headerByte k b s).sink = s.sink ∧ (headerByte k b s).micro.pixelsLeft = 0 := by
  rw [headerByte_eq]; split_ifs <;> exact ⟨rfl, rfl⟩

/-- R74: no pixel is accepted or offered in the priming. -/
theorem primeByte_pixels (k : Nat) (b : Byte) (s : State) :
    (primeByte k b s).sink = s.sink ∧ (primeByte k b s).micro.pixelsLeft = 0 := by
  unfold primeByte
  split_ifs <;> exact ⟨rfl, rfl⟩

/-- R32, R79: an accepted pixel is one of those the record had left. -/
theorem acceptPixel_pixels (e : Emission) (s : State) :
    (acceptPixel e s).sink.length + (acceptPixel e s).micro.pixelsLeft = s.sink.length + (e.more + 1) := by
  unfold acceptPixel
  split
  · next h => simp only [State.commit_sink, List.length_append, List.length_singleton, pixelsLeft_afterPixels, h]
  · next n h => simp only [State.commit_sink, List.length_append, List.length_singleton, Micro.pixelsLeft, h]; omega

/-- R93: a tag's byte offers at most 62 pixels. -/
theorem tagByte_pixels (b : Byte) (s : State) :
    (tagByte b s).sink = s.sink ∧ (tagByte b s).pos = s.pos + 1 ∧ (tagByte b s).source = s.source ∧
    (tagByte b s).micro.pixelsLeft ≤ 62 := by
  unfold tagByte
  obtain ⟨idx, -, -, he⟩ | ⟨p, cls, more, -, he, -, hmore, -⟩ | ⟨-, he⟩ :=
    handle_cases (decodeWindow s.window) (s.readShift b) <;> rw [he]
  · exact ⟨rfl, rfl, rfl, Nat.zero_le _⟩
  · exact ⟨rfl, rfl, rfl, hmore (decodeWindow_wellFormed _)⟩
  · exact ⟨rfl, rfl, rfl, Nat.zero_le _⟩

/-- R82: no served primitive raises the bound: the byte of a tag pays for the pixels of its record. -/
theorem pixelBound_serve_le (s : State) : (serve s).pixelBound ≤ s.pixelBound := by
  have keep : (serve s).sink.length + (serve s).micro.pixelsLeft ≤ s.sink.length + s.micro.pixelsLeft →
      (serve s).pixelBound ≤ s.pixelBound := fun hle => by
    obtain ⟨hsource, hpos, -⟩ := serve_source s
    rw [State.pixelBound, State.pixelBound, hsource]
    omega
  obtain ⟨h, -⟩ | ⟨h, -⟩ | ⟨k, b, -, -, h⟩ | ⟨k, b, -, -, h⟩ | ⟨-, -, h⟩ | ⟨b, -, -, hb, h⟩ | ⟨e, hm, h⟩ |
    ⟨n, b, -, -, h⟩ := serve_cases s
  · rw [h]
  · exact keep (by rw [h]; exact Nat.le_add_right _ _)
  · obtain ⟨hsink, hleft⟩ := headerByte_pixels k b s
    exact keep (by rw [h, hsink, hleft]; exact Nat.le_add_right _ _)
  · obtain ⟨hsink, hleft⟩ := primeByte_pixels k b s
    exact keep (by rw [h, hsink, hleft]; exact Nat.le_add_right _ _)
  · exact keep (by rw [h]; exact Nat.le_add_right _ _)
  · obtain ⟨hsink, hpos, hsource, hleft⟩ := tagByte_pixels b s
    have hbyte := State.nextByte?_eq_some hb
    rw [h, State.pixelBound, State.pixelBound, hsink, hpos, hsource]
    omega
  · exact keep (by rw [h, acceptPixel_pixels, hm]; exact le_refl _)
  · exact keep (by rw [h, refillByte, pixelsLeft_afterPixels]; exact Nat.le_add_right _ _)

/-! ### DONE is entered by the marker check alone (R76) -/

theorem ReadsEnd.phase_ne_done {s t : State} (h : ReadsEnd s t) (hs : s.phase ≠ .done) : t.phase ≠ .done := by
  obtain ⟨herr, -⟩ | ⟨hphase, -⟩ := h
  · simp [herr]
  · rwa [hphase]

/-- R76: a served primitive that enters DONE. -/
theorem serve_done {s : State} (h : (serve s).phase = .done) (hs : s.phase ≠ .done) :
    s.micro = .boundary ∧ s.window = marker := by
  obtain ⟨he, -⟩ | ⟨he, -⟩ | ⟨k, b, -, -, he⟩ | ⟨k, b, -, -, he⟩ | ⟨hm, hw, -⟩ | ⟨b, -, hw, -, he⟩ | ⟨e, -, he⟩ |
    ⟨n, b, -, -, he⟩ := serve_cases s
  · exact absurd (he ▸ h) hs
  · rw [he] at h; cases h
  · rw [he] at h
    obtain ⟨-, hphase, -⟩ | ⟨-, hphase⟩ | ⟨-, hphase⟩ := headerByte_cases k b s <;> rw [hphase] at h
    · exact absurd h hs
    · cases h
    · cases h
  · rw [he] at h; exact absurd h hs
  · exact ⟨hm, hw⟩
  · rw [he, tagByte] at h
    obtain ⟨idx, -, -, hi⟩ | ⟨p, cls, more, -, hi, -⟩ | ⟨hend, -⟩ := handle_cases (decodeWindow s.window) (s.readShift b)
    · rw [hi] at h; cases h
    · rw [hi] at h; exact absurd h hs
    · exact absurd (decodeWindow_eq_endMarker.mp hend) hw
  · rw [he, acceptPixel_eq] at h; exact absurd h hs
  · rw [he] at h; exact absurd h hs

/-- R76: a step that enters DONE, a clock edge or a whole operation. -/
theorem step_done {s t : State} (hfit : s.pointFits = true) (h : step s = .next t) (ht : t.phase = .done)
    (hs : s.phase ≠ .done) : s.micro = .boundary ∧ s.window = marker := by
  obtain ⟨e, es, -, ⟨-, rfl⟩ | ⟨-, -, ⟨source, -, rfl⟩⟩ | ⟨-, -, rfl⟩ | ⟨-, -, rfl⟩ | ⟨-, -, -, -, -, rfl⟩⟩ |
    ⟨hsch, ⟨hb, -⟩ | ⟨-, rfl⟩⟩ := step_cases h
  · cases ht
  · cases ht
  · exact absurd ht hs
  · exact serve_done (s := { s with schedule := es }) ht hs
  · cases ht
  · rcases State.busy_iff.mp hb with hp | hp
    · obtain herr | ⟨hstr, -⟩ := step_of_awaiting hfit hp hsch h
      · rw [ht] at herr; cases herr
      · rw [ht] at hstr; cases hstr
    · by_cases hm : s.micro = .boundary
      · rw [step_of_boundary ⟨hp, hm, hsch⟩] at h
        obtain ⟨hw, -⟩ | ⟨b, idx, -, -, rfl⟩ | ⟨hend, -⟩ := streamStep_cases h
        · exact ⟨hm, hw⟩
        · cases ht
        · exact absurd ht (hend.phase_ne_done hs)
      · exact absurd ht ((step_of_streaming hfit hp hm hsch h).phase_ne_done hs)
  · exact absurd ht hs

/-! ### What the invariant says of the window and of the offset (R18, R39, R81, R98) -/

/-- R39: at a boundary and in DONE the window is the last eight bytes read. -/
theorem State.Inv.take_drop_source {s : State} (h : s.Inv) (h22 : 22 ≤ s.pos) :
    (s.source.drop (s.pos - 8)).take 8 = s.window.toList := by
  refine List.ext_getElem? fun k => ?_
  by_cases hk : k < 8
  · have hread := h.windowRead ⟨k, hk⟩ (by simp only; omega)
    rw [List.getElem?_take_of_lt hk, List.getElem?_drop, show s.pos - 8 + k = s.pos + k - 8 by omega, hread]
    simp [hk]
  · rw [List.getElem?_eq_none (by simp; omega), List.getElem?_eq_none (by simp; omega)]

/-- R19, R39: at a boundary the front of the window is the byte at the record pointer. -/
theorem State.Inv.source_fp {s : State} (h : s.Inv) (h22 : 22 ≤ s.pos) : s.source[s.fp]? = some s.window[0] :=
  h.windowRead 0 h22

/-- R18, R98: after a tag fetch, nine less than the bytes consumed is the record pointer before it. -/
theorem State.Inv.failedIndexOffset_readShift {s : State} (h : s.Inv) (h22 : 22 ≤ s.pos) (b : Byte) :
    (s.readShift b).failedIndexOffset = BitVec.ofNat 64 s.fp := by
  obtain ⟨n, hn⟩ : ∃ n, s.pos = n + 8 := ⟨s.pos - 8, by omega⟩
  rw [State.failedIndexOffset, State.readShift_bytesConsumed, h.counted, State.fp, hn, Nat.add_sub_cancel,
    BitVec.ofNat_add, BitVec.add_assoc]
  exact BitVec.add_sub_cancel _ _

end Sys2Proof.Machine

open Sys2Proof Sys2Proof.Machine

/-- Settles O57: each whole operation of a decode leaves fewer of them. -/
theorem decodeEnds : Obligations.DecodeEnds := by
  unfold Obligations.DecodeEnds
  intro s h hs
  obtain ⟨hle, hleb⟩ := s.stepsLeft_le
  obtain ⟨k, t, hk, hq, hkle⟩ := decode_ends s h hs
  exact ⟨k, t, hk, hq, hkle.trans hle, fun hm => hkle.trans (hleb hm)⟩

/-- Settles O58: the steps are a chain of served primitives, none of which raises the bound. -/
theorem pixelsAreBounded : Obligations.PixelsAreBounded := by
  unfold Obligations.PixelsAreBounded
  intro s t k _ hs hk
  obtain ⟨m, rfl⟩ := stepsTo_serves k hs.schedule hk
  have hbound : (serve^[m] s).pixelBound ≤ s.pixelBound :=
    serve_iterate_keeps (P := fun u => u.pixelBound ≤ s.pixelBound) (fun u hu => (pixelBound_serve_le u).trans hu) m s
      (le_refl _)
  rw [State.pixelBound_boundary hs.micro] at hbound
  exact (Nat.le_add_right_of_le (Nat.le_add_right _ _)).trans hbound

/-- Settles O23: the marker check ends the decode, no other primitive and no other end of a whole operation is DONE, and a
window primed with the marker meets the check. -/
theorem markerEndsDecode : Obligations.MarkerEndsDecode := by
  unfold Obligations.MarkerEndsDecode
  refine ⟨fun s => rfl, fun s hs hw => step_of_marker hs hw, fun s t hfit h ht hs => ?_, fun s hp hm hs hd => ?_⟩
  · obtain ⟨hm, hw⟩ := step_done hfit h ht hs
    exact ⟨streaming_of_boundary hfit hm, hm, hw⟩
  · exact ⟨_, ⟨_, primingReadsEight s marker hp hm hs hd, _, step_of_marker ⟨hp, rfl, hs⟩ rfl, rfl⟩, rfl, rfl, rfl⟩

/-- Settles O38: of the ways a step from a boundary can end, only a failed lookup raises InvalidCacheReference. -/
theorem failedLookupOffset : Obligations.FailedLookupOffset := by
  unfold Obligations.FailedLookupOffset
  intro s t h hs hst herr
  have hnone : s.errCode = .none := h.noError (by simp [hs.phase])
  rw [step_of_boundary hs] at hst
  obtain ⟨-, rfl⟩ | ⟨b, idx, hi, hmiss, rfl⟩ | ⟨⟨-, hend⟩ | ⟨-, hend, -⟩, -⟩ := streamStep_cases hst
  · have hkept : s.errCode = .invalidCacheReference := herr
    rw [hnone] at hkept; cases hkept
  · have h22 : 22 ≤ s.pos := by simpa [State.pointFits, hs.phase, hs.micro] using h.point
    refine ⟨h.failedIndexOffset_readShift h22 b, rfl, rfl, _, h.source_fp h22, idx, decodeWindow_eq_cachedIndex hi, ?_⟩
    rw [State.cacheValid, State.raise_cache, State.readShift_cache, hmiss]
    rfl
  · rw [hend] at herr; cases herr
  · rw [hend, hnone] at herr; cases herr

/-- Settles O21: the marker check and the tag fetch, the record taken from the window before the fetch. -/
theorem stepRunsDecodedRecord : Obligations.StepRunsDecodedRecord := by
  unfold Obligations.StepRunsDecodedRecord
  refine fun s hs => ⟨step_of_marker hs, fun b hw hb => ?_⟩
  rw [step_of_record hs hw hb, decodeWindow_of_ne_marker hw]
  rfl

/-- Settles O22: the load leaves an opcode boundary with the word in the window and a byte to fetch. -/
theorem loadedWordRunsNext : Obligations.LoadedWordRunsNext := by
  unfold Obligations.LoadedWordRunsNext
  intro s nbits w i hi
  have hwindow : decodeWindow (s.withFetchWord nbits w).window = i := decodeWindow_of_decodeTableWord hi
  have hboundary := withFetchWord_atBoundary s nbits w
  by_cases hend : i = .endMarker
  · rw [if_pos hend, hend]
    exact step_of_marker hboundary (decodeWindow_eq_endMarker.mp (hwindow.trans hend))
  · have hw : (s.withFetchWord nbits w).window ≠ marker := fun hw =>
      hend (hwindow.symm.trans (decodeWindow_eq_endMarker.mpr hw))
    rw [if_neg hend, step_of_record hboundary hw (withFetchWord_nextByte? s nbits w), hwindow]

/-- Settles O24: the tag fetch comes before the handler, and it finds no byte. -/
theorem truncatedTagFetch : Obligations.TruncatedTagFetch := by
  unfold Obligations.TruncatedTagFetch
  exact fun s hs hw hlen => step_of_exhausted hs hw (State.nextByte?_eq_none.mpr hlen)

/-- Settles O41: the image is defined by the phase, and the rest is the invariant's. -/
theorem imageOnlyWhenDone : Obligations.ImageOnlyWhenDone := by
  unfold Obligations.ImageOnlyWhenDone
  refine fun s h => ⟨fun hp => if_neg (by simp [hp]), fun hp => ?_⟩
  obtain ⟨hw, h22⟩ := h.doneAtMarker hp
  exact ⟨if_pos hp, h.headerFlag.1 (.inr hp), h.pixels (by simp [hp]), hw ▸ h.take_drop_source h22⟩

end

section
/-! PROOFS of the family 42_literal.md: what a record that commits one pixel answers when its operand bytes can be read
again and when the source ends first (R79, R80, R97), and the two literal records (R87, R88). -/

namespace Sys2Proof.Machine

/-! ### A record of one pixel, in closed form (R79, R80, R97) -/

/-- R79: a commit of a class that inserts under the policy. -/
theorem State.commit_of_inserts {p : Pixel} {cls : TagClass} {s : State} (h : inserts s.policy cls = true) :
    s.commit p cls =
      { s with
        sink := s.sink ++ [p]
        pixelCount := s.pixelCount + 1
        cache := cacheInsert p s.cache
        prev := p } := by
  rw [State.commit, if_pos h]

section
variable {i : Instr} {p : Pixel} {cls : TagClass} {bs : List Byte} {s : State}

/-- R80: with all its operand bytes to read, the record ends at the next opcode boundary. -/
theorem exec_of_offer_of_bytes (hi : handle i s = s.offer p cls 0) (hn : bs.length = cls.operandBytes)
    (h : bs <+: s.source.drop s.pos) :
    exec i s = .next { (s.commit p cls).readShifts bs with micro := .boundary } := by
  rw [exec_eq, hi, State.finishRecord_offer]
  exact congrArg Host.Outcome.next (refill_eq_of_bytes (s := s.commit p cls) hn h)

/-- R80, R97: with fewer, the commit stands, the bytes there are are read, and TruncatedStream is raised. -/
theorem exec_of_offer_short (hi : handle i s = s.offer p cls 0) (hd : s.source.drop s.pos = bs)
    (hn : bs.length < cls.operandBytes) :
    exec i s = .next (((s.commit p cls).readShifts bs).raise .truncatedStream) := by
  subst hd
  rw [exec_eq, hi, State.finishRecord_offer]
  exact congrArg Host.Outcome.next (refill_short cls.operandBytes (s.commit p cls) hn)

end

end Sys2Proof.Machine

open Sys2Proof Sys2Proof.Machine

/-- Settles O26: the handler offers the pixel under a class that always inserts, and the refill is of three bytes. -/
theorem literalRGBRecord : Obligations.LiteralRGBRecord := by
  unfold Obligations.LiteralRGBRecord
  have hinserts (policy : CachePolicy) : inserts policy .literalRGB = true := (inserts_iff _ _).mpr (.inr (.inl rfl))
  refine ⟨fun b1 b2 b3 b4 => decodeRecord_of_literalRGB b1 b2 b3 b4 rfl, fun r g b s x1 x2 x3 h => ?_,
    fun r g b s bs hd hn => ?_⟩
  · rw [exec_of_offer_of_bytes (cls := .literalRGB) rfl rfl h, State.commit_of_inserts (hinserts _)]
    rfl
  · rw [exec_of_offer_short (cls := .literalRGB) rfl hd hn, State.commit_of_inserts (hinserts _)]
    rfl

/-- Settles O27: the handler offers the pixel under a class that always inserts, and the refill is of four bytes. -/
theorem literalRGBARecord : Obligations.LiteralRGBARecord := by
  unfold Obligations.LiteralRGBARecord
  have hinserts (policy : CachePolicy) : inserts policy .literalRGBA = true := (inserts_iff _ _).mpr (.inr (.inr rfl))
  refine ⟨fun b1 b2 b3 b4 => decodeRecord_of_literalRGBA b1 b2 b3 b4 rfl, fun r g b a s x1 x2 x3 x4 h => ?_,
    fun r g b a s bs hd hn => ?_⟩
  · rw [exec_of_offer_of_bytes (cls := .literalRGBA) rfl rfl h, State.commit_of_inserts (hinserts _)]
    rfl
  · rw [exec_of_offer_short (cls := .literalRGBA) rfl hd hn, State.commit_of_inserts (hinserts _)]
    rfl

end

section
/-! PROOFS of the family 43_index.md: what a record without operand bytes answers, in closed form (R58, R79, R94), and the
cached-index record (R89). -/

namespace Sys2Proof.Machine

/-! ### A record without operand bytes, in closed form (R58, R79, R94) -/

/-- R58, R79: a class without operand bytes is no literal, so it inserts under ALL alone. -/
theorem inserts_iff_of_operandBytes_eq_zero {policy : CachePolicy} {cls : TagClass} (h : cls.operandBytes = 0) :
    inserts policy cls = true ↔ policy = .all := by
  have hrgb : cls ≠ .literalRGB := by rintro rfl; cases h
  have hrgba : cls ≠ .literalRGBA := by rintro rfl; cases h
  simp only [inserts_iff, hrgb, hrgba, or_false]

/-- R79, R94: with nothing to refill, the record is its commits and the next opcode boundary. -/
theorem exec_of_offer_of_operandBytes_eq_zero {i : Instr} {p : Pixel} {cls : TagClass} {more : Nat} {s : State}
    (hi : handle i s = s.offer p cls more) (hn : cls.operandBytes = 0) :
    exec i s = .next { s with
      sink := s.sink ++ List.replicate (more + 1) p
      pixelCount := s.pixelCount + BitVec.ofNat 64 (more + 1)
      cache := if s.policy = .all then cacheInsert p s.cache else s.cache
      prev := p
      micro := .boundary } := by
  rw [exec_eq, hi, State.finishRecord_offer, hn, State.commits_eq]
  simp only [inserts_iff_of_operandBytes_eq_zero hn, refill]

/-! ### The cached-index record (R89) -/

/-- R60: the tags of a CachedIndex are those up to 0x3F. -/
theorem classify_eq_cachedIndex {t : Byte} (h : t.toNat ≤ 0x3F) : classify t = .cachedIndex :=
  classify_eq_iff.mpr ⟨Nat.zero_le _, h⟩

/-- R35, R89: of a populated slot, the handler offers the slot's pixel. -/
theorem handle_cachedIndex_of_hit {idx : Fin 64} {p : Pixel} {s : State} (h : cacheLookup idx s.cache = some p) :
    handle (.cachedIndex idx) s = s.offer p .cachedIndex 0 := by
  rw [handle, handleCachedIndex, h]

/-- R35, R89: of an empty slot, the handler raises and offers nothing. -/
theorem handle_cachedIndex_of_miss {idx : Fin 64} {s : State} (h : cacheLookup idx s.cache = none) :
    handle (.cachedIndex idx) s = s.raise .invalidCacheReference := by
  rw [handle, handleCachedIndex, h]

end Sys2Proof.Machine

open Sys2Proof Sys2Proof.Machine

/-- Settles O28: the handler offers the slot's pixel, with no operand byte to refill, or raises before any pixel. -/
theorem cachedIndexRecord : Obligations.CachedIndexRecord := by
  unfold Obligations.CachedIndexRecord
  refine ⟨fun t b1 b2 b3 b4 ht => ?decodes, fun idx s p hp => ⟨?commits, fun hwf => cacheInsert_of_cacheLookup hwf hp⟩,
    fun idx s hp => ?raises⟩
  case decodes =>
    exact ⟨_, by simp, decodeRecord_of_cachedIndex b1 b2 b3 b4 (classify_eq_cachedIndex ht)⟩
  case commits => exact exec_of_offer_of_operandBytes_eq_zero (handle_cachedIndex_of_hit hp) rfl
  case raises =>
    rw [exec_eq, handle_cachedIndex_of_miss hp, State.finishRecord_raise]
    rfl

end

section
/-! PROOFS of the family 44_delta.md: what a commit of a class that is no literal leaves behind (R79), the byte that is
next to be read as the front of what is left of the source (R31), and the two delta records (R91, R92). -/

namespace Sys2Proof.Machine

/-- R79: a commit of a class that is no literal inserts under ALL alone. -/
theorem State.commit_of_not_literal {p : Pixel} {cls : TagClass} {s : State} (hrgb : cls ≠ .literalRGB)
    (hrgba : cls ≠ .literalRGBA) :
    s.commit p cls =
      { s with
        sink := s.sink ++ [p]
        pixelCount := s.pixelCount + 1
        cache := if s.policy = .all then cacheInsert p s.cache else s.cache
        prev := p } := by
  simp only [State.commit, inserts_iff, hrgb, hrgba, or_false]

/-- R31: the byte at the read position is the front of the bytes left to read. -/
theorem singleton_prefix_drop_of_getElem? {s : State} {x : Byte} (h : s.source[s.pos]? = some x) :
    [x] <+: s.source.drop s.pos := by
  obtain ⟨hpos, rfl⟩ := List.getElem?_eq_some_iff.mp h
  rw [List.drop_eq_getElem_cons hpos]
  exact List.prefix_append [_] _

end Sys2Proof.Machine

open Sys2Proof Sys2Proof.Machine

/-- Settles O29: the handler offers the pixel of three wrapping adds, with no operand byte to refill. -/
theorem smallDeltaRecord : Obligations.SmallDeltaRecord := by
  unfold Obligations.SmallDeltaRecord
  refine ⟨fun t b1 b2 b3 b4 hlo hhi => ?decodes, fun dr dg db s => ⟨smallDeltaPixel dr dg db s.prev,
    addDelta_toNat _ _, addDelta_toNat _ _, addDelta_toNat _ _, rfl, ?commits⟩⟩
  case decodes => exact decodeRecord_of_smallDelta b1 b2 b3 b4 (classify_eq_iff.mpr ⟨hlo, hhi⟩)
  case commits => exact exec_of_offer_of_operandBytes_eq_zero (cls := .smallDelta) (more := 0) rfl rfl

/-- Settles O30: the handler offers the pixel of three wrapping adds, and the refill is of one byte. -/
theorem lumaDeltaRecord : Obligations.LumaDeltaRecord := by
  unfold Obligations.LumaDeltaRecord
  have hsum (c : Byte) (d e : Int) : ((addDelta c (d + e)).toNat : Int) = ((c.toNat : Int) + d + e) % 256 := by
    rw [addDelta_toNat, Int.add_assoc]
  refine ⟨fun t b1 b2 b3 b4 hlo hhi => ?decodes, fun dg drdg dbdg s => ⟨lumaDeltaPixel dg drdg dbdg s.prev,
    hsum _ _ _, addDelta_toNat _ _, hsum _ _ _, rfl, fun x hx => ?commits, fun hend => ?raises⟩⟩
  case decodes => exact decodeRecord_of_lumaDelta b1 b2 b3 b4 (classify_eq_iff.mpr ⟨hlo, hhi⟩)
  case commits =>
    rw [exec_of_offer_of_bytes (cls := .lumaDelta) rfl rfl (singleton_prefix_drop_of_getElem? hx),
      State.commit_of_not_literal (cls := .lumaDelta) nofun nofun]
    rfl
  case raises =>
    rw [exec_of_offer_short (cls := .lumaDelta) rfl (List.drop_eq_nil_of_le hend) Nat.zero_lt_one, State.readShifts_nil,
      State.commit_of_not_literal (cls := .lumaDelta) nofun nofun]
    rfl

end

section
/-! PROOFS of the family 45_run.md: the run record (R93). -/

open Sys2Proof Sys2Proof.Machine

/-- Settles O31: the handler offers the previous pixel with `n - 1` copies to follow, and no operand byte to refill. -/
theorem runRecord : Obligations.RunRecord := by
  unfold Obligations.RunRecord
  refine ⟨fun t b1 b2 b3 b4 hlo hhi => ?decodes, fun n s hn _ => ?commits⟩
  case decodes => exact decodeRecord_of_run b1 b2 b3 b4 (classify_eq_iff.mpr ⟨hlo, hhi⟩)
  case commits =>
    obtain ⟨more, rfl⟩ := Nat.exists_eq_add_of_le' hn
    exact exec_of_offer_of_operandBytes_eq_zero (cls := .run) (more := more) rfl rfl

end

section
/-! PROOFS of the family 60_exceptions.md: the codes that a primitive raises (R95, R99), where a TruncatedStream stops a
decode (R97), and the phases in which none is in progress (R100, R101, R104, R109, R110). -/

namespace Sys2Proof.Machine

/-! ### The codes that a served primitive raises (R95, R99) -/

/-- R66 to R69: a header byte raises MalformedHeader or nothing. -/
theorem headerByte_errCode (k : Nat) (b : Byte) (s : State) :
    (headerByte k b s).errCode = s.errCode ∨ (headerByte k b s).errCode = .malformedHeader := by
  rw [headerByte_eq]
  split_ifs
  · exact .inl rfl
  · exact .inr rfl
  · exact .inl rfl
  · exact .inr rfl
  · exact .inl rfl

/-- R77, R89: a tag's byte raises InvalidCacheReference or nothing. -/
theorem tagByte_errCode (b : Byte) (s : State) :
    (tagByte b s).errCode = s.errCode ∨ (tagByte b s).errCode = .invalidCacheReference := by
  unfold tagByte
  obtain ⟨idx, -, -, he⟩ | ⟨p, cls, more, -, he, -⟩ | ⟨-, he⟩ :=
    handle_cases (decodeWindow s.window) (s.readShift b) <;> rw [he]
  · exact .inr rfl
  · exact .inl rfl
  · exact .inl rfl

/-- R95: the errors of a served primitive; TruncatedStream is a read that finds no byte. -/
theorem serve_errCode (s : State) :
    (serve s).errCode = s.errCode ∨ (serve s).errCode = .malformedHeader ∨
    (serve s).errCode = .invalidCacheReference ∨ (serve s = s.raise .truncatedStream ∧ s.nextByte? = none) := by
  obtain ⟨h, -⟩ | hend | ⟨k, b, -, -, h⟩ | ⟨k, b, -, -, h⟩ | ⟨-, -, h⟩ | ⟨b, -, -, -, h⟩ | ⟨e, -, h⟩ | ⟨n, b, -, -, h⟩ :=
    serve_cases s
  · exact .inl (by rw [h])
  · exact .inr (.inr (.inr hend))
  · rw [h]
    exact (headerByte_errCode k b s).imp_right .inl
  · exact .inl (by rw [h]; rfl)
  · exact .inl (by rw [h]; rfl)
  · rw [h]
    exact (tagByte_errCode b s).imp_right fun hmiss => .inr (.inl hmiss)
  · exact .inl (by rw [h, acceptPixel_eq]; rfl)
  · exact .inl (by rw [h]; rfl)

/-- R99: no served primitive raises UnknownOpcode. -/
theorem unknownOpcode_of_serve {s : State} (h : (serve s).errCode = .unknownOpcode) : s.errCode = .unknownOpcode := by
  obtain hkept | hmalformed | hmiss | ⟨htrunc, -⟩ := serve_errCode s
  · exact hkept.symm.trans h
  · rw [hmalformed] at h; cases h
  · rw [hmiss] at h; cases h
  · rw [htrunc] at h; cases h

/-! ### The program point and the read position (R27) -/

section
variable {s : State} (h : s.Inv)
include h

theorem State.Inv.header_point {k : Nat} (hm : s.micro = .header k) : k < 14 ∧ s.pos = k := by
  cases hp : s.phase <;> simpa [State.pointFits, hp, hm] using h.point

theorem State.Inv.prime_point {k : Nat} (hm : s.micro = .prime k) : k < 8 ∧ s.pos = 14 + k := by
  cases hp : s.phase <;> simpa [State.pointFits, hp, hm] using h.point

/-- From the first opcode boundary on, the header and the window's first eight bytes have been read. -/
theorem State.Inv.record_point (hb : s.busy = true) (hh : ∀ k, s.micro ≠ .header k) (hpr : ∀ k, s.micro ≠ .prime k) :
    22 ≤ s.pos := by
  rcases State.busy_iff.mp hb with hp | hp
  · obtain ⟨k, hm, -⟩ := h.awaiting hp
    exact absurd hm (hh k)
  · obtain ⟨k, hm, -⟩ | ⟨h22, -⟩ := h.streaming hp
    · exact absurd hm (hpr k)
    · exact h22

/-- R25: while a decode is in progress, `hdr_valid` tells whether the header's 14 bytes have been read. -/
theorem State.Inv.hdrValid_of_busy (hb : s.busy = true) : s.hdrValid = false ↔ s.pos < 14 := by
  rcases State.busy_iff.mp hb with hp | hp
  · obtain ⟨k, -, hk, hpos⟩ := h.awaiting hp
    exact iff_of_true (h.headerFlag.2 (.inr hp)) (by omega)
  · have h14 : 14 ≤ s.pos := by obtain ⟨k, -, -, hpos⟩ | ⟨h22, -⟩ := h.streaming hp <;> omega
    exact iff_of_false (by simp [h.headerFlag.1 (.inl hp)]) (by omega)

end

/-! ### A served TruncatedStream has consumed the whole source (R97) -/

/-- What a TruncatedStream says of the bytes read: none is left, and `hdr_valid` tells whether they hold a header. -/
def TruncatedAtEnd (s : State) : Prop :=
  s.errCode = .truncatedStream → s.source.length ≤ s.pos ∧ (s.hdrValid = false ↔ s.pos < 14)

/-- A served primitive raises TruncatedStream only where no byte is left. -/
theorem TruncatedAtEnd.serve {s : State} (hinv : s.Inv) (h : TruncatedAtEnd s) : TruncatedAtEnd (serve s) := by
  cases hb : s.busy with
  | false => rwa [hinv.serve_quiescent hb]
  | true =>
    intro herr
    have hnone : s.errCode = .none := hinv.noError fun hp => by simp [State.busy, hp] at hb
    obtain hkept | hmalformed | hmiss | ⟨htrunc, hend⟩ := serve_errCode s
    · rw [hkept, hnone] at herr; cases herr
    · rw [hmalformed] at herr; cases herr
    · rw [hmiss] at herr; cases herr
    · rw [htrunc]
      exact ⟨State.nextByte?_eq_none.mp hend, hinv.hdrValid_of_busy hb⟩

/-- A whole operation is a chain of served primitives. -/
theorem TruncatedAtEnd.step {s t : State} (hinv : s.Inv) (hs : s.schedule = []) (h : TruncatedAtEnd s)
    (ht : step s = .next t) : TruncatedAtEnd t := by
  obtain ⟨m, rfl⟩ := stepsTo_serves 1 hs ⟨t, ht, rfl⟩
  exact (serve_iterate_keeps (P := fun u => u.Inv ∧ TruncatedAtEnd u) (fun u hu => ⟨hu.1.serve, hu.2.serve hu.1⟩) m s
    ⟨hinv, h⟩).2

/-! ### Where a read of the header or of the priming stops (R66, R74, R97) -/

/-- Where the `n` reads that begin in `s` end in `t` with a TruncatedStream, one of them has found no byte. -/
def ReadsFewer (n : Nat) (s t : State) : Prop := t.errCode = .truncatedStream → t.pos < s.pos + n

/-- A read that finds no byte has read none; one that finds a byte leaves the rest of the reads. -/
theorem ReadsFewer.readThen {n : Nat} {byte : Byte → State → State} {rest : State → State} {s : State}
    (hpos : ∀ b, (byte b s).pos = s.pos + 1) (hrest : ∀ b, ReadsFewer n (byte b s) (rest (byte b s))) :
    ReadsFewer (n + 1) s (readThen (fun b u => rest (byte b u)) s) := by
  unfold Machine.readThen
  cases s.nextByte? with
  | none => exact fun _ => Nat.lt_add_of_pos_right n.succ_pos
  | some b =>
    intro herr
    calc
      (rest (byte b s)).pos < (byte b s).pos + n := hrest b herr
      _ = s.pos + (n + 1) := by rw [hpos b]; omega

theorem headerBytes_readsFewer : ∀ (n : Nat) (s : State), s.errCode ≠ .truncatedStream → ReadsFewer n s (headerBytes n s)
  | 0, _, hne => fun herr => absurd herr hne
  | n + 1, s, hne => by
    by_cases hm : ∃ k, s.micro = .header k
    · obtain ⟨k, hm⟩ := hm
      rw [headerBytes_succ n hm]
      refine .readThen (headerByte_pos k · s) fun b => headerBytes_readsFewer n (headerByte k b s) ?_
      obtain he | he := headerByte_errCode k b s <;> rw [he]
      · exact hne
      · exact nofun
    · rw [headerBytes_of_not_header _ (not_exists.mp hm)]
      exact fun herr => absurd herr hne

theorem primeBytes_readsFewer : ∀ (n : Nat) (s : State), s.errCode ≠ .truncatedStream → ReadsFewer n s (primeBytes n s)
  | 0, _, hne => fun herr => absurd herr hne
  | n + 1, s, hne => by
    by_cases hm : ∃ k, s.micro = .prime k
    · obtain ⟨k, hm⟩ := hm
      rw [primeBytes_succ n hm]
      exact .readThen (byte := primeByte k) (fun _ => rfl) fun b => primeBytes_readsFewer n (primeByte k b s) hne
    · rw [primeBytes_of_not_prime _ (not_exists.mp hm)]
      exact fun herr => absurd herr hne

/-! ### Whole operations by their program point (R86) -/

section
variable {s t : State} (hb : s.busy = true) (hs : s.schedule = []) (ht : step s = .next t)
include hb hs ht

theorem eq_headerBytes_of_step {k : Nat} (hm : s.micro = .header k) : t = headerBytes (14 - k) s := by
  rw [step_of_no_schedule hs, operate, if_pos hb, hm] at ht
  exact (Host.Outcome.next.inj ht).symm

theorem eq_primeBytes_of_step {k : Nat} (hm : s.micro = .prime k) : t = primeBytes (8 - k) s := by
  rw [step_of_no_schedule hs, operate, if_pos hb, hm] at ht
  exact (Host.Outcome.next.inj ht).symm

/-- R80: the rest of a refill commits no pixel. -/
theorem sink_of_step_refill {n : Nat} (hm : s.micro = .refill n) : t.sink = s.sink := by
  rw [step_of_no_schedule hs, operate, if_pos hb, hm] at ht
  cases ht
  obtain ⟨-, -, -, -, -, -, hsink, -⟩ := refill_frame (n + 1) s
  rwa [State.finishRecord, hm]

/-- R79, R80: the rest of a record with its pixel on the port commits that pixel and its copies. -/
theorem sink_of_step_emit {e : Emission} (hm : s.micro = .emit e) :
    t.sink = s.sink ++ List.replicate (e.more + 1) e.pixel := by
  rw [step_of_no_schedule hs, operate, if_pos hb, hm] at ht
  cases ht
  obtain ⟨-, -, -, -, -, -, hsink, -⟩ := refill_frame e.cls.operandBytes (s.commits (e.more + 1) e.pixel e.cls)
  rw [State.finishRecord, hm]
  exact hsink.trans (by rw [State.commits_eq])

end

/-! ### No decode in progress (R101, R104, R109, R110) -/

section
variable {s : State} (hq : s.quiescent)
include hq

theorem State.inReady_of_quiescent : s.inReady = false := by
  rw [State.inReady, hq, Bool.false_and]

theorem State.offered_of_quiescent : s.offered = none := by
  rw [State.offered, hq]

theorem clockEdge_of_quiescent {e : Edge} (hrst : e.rst = false) (hstart : e.start = none) : clockEdge e s = s := by
  simp [clockEdge, hrst, hstart, show s.busy = false from hq]

end

theorem clockEdge_of_rst {e : Edge} (s : State) (hrst : e.rst = true) : clockEdge e s = s.hardReset := if_pos hrst

/-- R110: an edge with `rst` is a step to the reset registers. -/
theorem step_of_rst {e : Edge} {es : List Edge} {s : State} (hs : s.schedule = e :: es) (hrst : e.rst = true) :
    step s = .next (State.hardReset { s with schedule := es }) := by
  rw [step, hs]
  exact congrArg Host.Outcome.next (clockEdge_of_rst _ hrst)

/-- R95, R100: whatever the program point, a whole operation answers a state. -/
theorem operate_answers (s : State) : ∃ t, operate s = .next t := by
  cases hb : s.busy with
  | false => exact ⟨s, operate_quiescent hb⟩
  | true =>
    obtain ⟨m, hm, -⟩ := operate_serves hb
    exact ⟨_, hm⟩

end Sys2Proof.Machine

open Sys2Proof Sys2Proof.Machine

/-- Settles O39: the source is consumed by every chain of primitives that ends in TruncatedStream, its length is read off
the program point and the reads that are left from there, and the pixels are those of the record in progress. -/
theorem truncationConsumesSource : Obligations.TruncationConsumesSource := by
  unfold Obligations.TruncationConsumesSource
  intro s t h hs hp ht herr
  have hnone : s.errCode ≠ .truncatedStream := by simp [h.noError hp]
  have hinv : t.Inv := h.step ht
  have hphase : t.phase = .error := hinv.errors.mp (by simp [herr])
  have hb : s.busy = true := by
    by_contra hq
    rw [step_of_no_schedule hs, operate_quiescent (Bool.eq_false_of_not_eq_true hq)] at ht
    cases ht
    exact hnone herr
  obtain ⟨-, -, hpos⟩ := step_host hs ht
  have h22 (hh : ∀ k, s.micro ≠ .header k) (hpr : ∀ k, s.micro ≠ .prime k) : 22 ≤ t.pos :=
    (h.record_point hb hh hpr).trans hpos
  obtain ⟨hend, hvalid⟩ := TruncatedAtEnd.step h hs (fun he => absurd he hnone) ht herr
  have hlen : t.source.length = t.pos := hend.antisymm hinv.within
  rw [hlen]
  refine ⟨hinv.counted, hinv.pixels (by simp [hphase]), hvalid, fun k hm => ?header, fun k hm => ?prime,
    fun hm => ?boundary, fun n hm => ?refill, fun e hm => ?emit⟩
  case header =>
    obtain ⟨hk, hposk⟩ := h.header_point hm
    obtain rfl := eq_headerBytes_of_step hb hs ht hm
    have hfewer := headerBytes_readsFewer (14 - k) s hnone herr
    omega
  case prime =>
    obtain ⟨hk, hposk⟩ := h.prime_point hm
    obtain rfl := eq_primeBytes_of_step hb hs ht hm
    have hfewer := primeBytes_readsFewer (8 - k) s hnone herr
    omega
  case boundary => exact h22 (by simp [hm]) (by simp [hm])
  case refill => exact ⟨h22 (by simp [hm]) (by simp [hm]), sink_of_step_refill hb hs ht hm⟩
  case emit => exact ⟨h22 (by simp [hm]) (by simp [hm]), sink_of_step_emit hb hs ht hm⟩

/-- Settles O40: every way a step can go keeps the code, clears it, or raises another one. -/
theorem unknownOpcodeNeverRaised : Obligations.UnknownOpcodeNeverRaised := by
  unfold Obligations.UnknownOpcodeNeverRaised
  intro s t h ht
  obtain ⟨e, es, -, ⟨-, rfl⟩ | ⟨-, -, ⟨source, -, rfl⟩⟩ | ⟨-, -, rfl⟩ | ⟨-, -, rfl⟩ | ⟨-, -, -, -, -, rfl⟩⟩ |
    ⟨-, ⟨-, m, rfl⟩ | ⟨-, rfl⟩⟩ := step_cases h
  · cases ht
  · cases ht
  · exact ht
  · exact unknownOpcode_of_serve (s := { s with schedule := es }) ht
  · cases ht
  · exact serve_iterate_keeps (P := fun u => u.errCode = .unknownOpcode → s.errCode = .unknownOpcode)
      (fun u hu hserve => hu (unknownOpcode_of_serve hserve)) m s id ht
  · exact ht

/-- Settles O36: ERROR is quiescent, and the registers that a raise does not name are the state's. -/
theorem errorEntryKeepsRegisters : Obligations.ErrorEntryKeepsRegisters := by
  unfold Obligations.ErrorEntryKeepsRegisters
  intro e s
  have hq : (s.raise e).quiescent := State.quiescent_iff.mpr (.inr (.inr rfl))
  exact ⟨rfl, rfl, State.inReady_of_quiescent hq, State.offered_of_quiescent hq, rfl, rfl, rfl, rfl, rfl, rfl, rfl⟩

/-- Settles O37: in the quiescent phases the ports are closed, and only `rst` and `start` are looked at. -/
theorem quiescentPhasesHold : Obligations.QuiescentPhasesHold := by
  unfold Obligations.QuiescentPhasesHold
  intro s hp
  have hq : s.quiescent := State.quiescent_iff.mpr hp
  exact ⟨State.inReady_of_quiescent hq, State.offered_of_quiescent hq, fun e => clockEdge_of_quiescent hq,
    fun hs => (step_of_no_schedule hs).trans (operate_quiescent hq)⟩

/-- Settles O43: the edge is a hard reset, which leaves IDLE, a quiescent phase. -/
theorem rstFromAnyState : Obligations.RstFromAnyState := by
  unfold Obligations.RstFromAnyState
  intro e es s hs hrst
  have hq : (State.hardReset { s with schedule := es }).quiescent := rfl
  refine ⟨_, step_of_rst hs hrst, rfl, rfl, rfl, rfl, rfl, fun k => ?window, fun i => ?cache, fun k => ?header, rfl, rfl,
    State.inReady_of_quiescent hq, State.offered_of_quiescent hq, rfl⟩
  case window => exact Vector.getElem_replicate _
  case cache => rw [State.cacheValid, State.hardReset_cache, cacheLookup_replicate]; rfl
  case header => exact Vector.getElem_replicate _

/-- Settles O55: an edge answers a state, and so does a whole operation. -/
theorem everyStepAnswers : Obligations.EveryStepAnswers := by
  unfold Obligations.EveryStepAnswers
  intro s
  cases hs : s.schedule with
  | cons e es => exact ⟨clockEdge e { s with schedule := es }, by rw [step, hs]⟩
  | nil => rw [step_of_no_schedule hs]; exact operate_answers s

end

section
/-! PROOFS of the family 70_reset_and_hazards.md and of the statements left over: the reset state (R110), the edges of
`start` (R111), of a read (R31) and of a waiting pixel (R118), and the words of the opcode table (R57). -/

namespace Sys2Proof.Machine

/-! ### One edge of a read (R13, R31) -/

theorem readEdge_of_byte {e : Edge} {k : Byte → State → State} {s : State} {b : Byte} (hv : e.inValid = true)
    (hb : s.nextByte? = some b) : readEdge e k s = k b s := by
  simp only [readEdge, hv, hb]

theorem readEdge_of_no_byte {e : Edge} {s : State} (k : Byte → State → State)
    (h : e.inValid = false ∨ s.nextByte? = none) :
    readEdge e k s = if e.inEof then s.raise .truncatedStream else s := by
  obtain ⟨b, hb, hv, -⟩ | ⟨heof, -, he⟩ | ⟨heof, -, he⟩ := readEdge_cases e k s
  · simp [hv, hb] at h
  · rw [he, if_pos heof]
  · rw [he, if_neg (by simp [heof])]

theorem headerByte_bytesConsumed (k : Nat) (b : Byte) (s : State) :
    (headerByte k b s).bytesConsumed = s.bytesConsumed + 1 := by
  rw [headerByte_eq]; split_ifs <;> rfl

/-- R78: a handler counts no byte. -/
theorem handle_bytesConsumed (i : Instr) (s : State) : (handle i s).bytesConsumed = s.bytesConsumed := by
  obtain ⟨_, -, -, he⟩ | ⟨_, _, _, -, he, -⟩ | ⟨-, he⟩ := handle_cases i s <;> rw [he] <;> rfl

/-- R28, R31: while `in_ready` is 1 an edge is an edge of a read, and the work of the read's byte counts it once. -/
theorem clockEdge_of_inReady {s : State} (h : s.inReady = true) : ∃ k : Byte → State → State,
    (∀ e : Edge, e.rst = false → clockEdge e s = readEdge e k s) ∧
    ∀ b, (k b s).pos = s.pos + 1 ∧ (k b s).bytesConsumed = s.bytesConsumed + 1 := by
  obtain ⟨hb, hm⟩ := Bool.and_eq_true_iff.mp h
  have edge {k : Byte → State → State} (hk : ∀ e, portEdge e s = readEdge e k s) (e : Edge) (hrst : e.rst = false) :
      clockEdge e s = readEdge e k s := (clockEdge_of_busy hrst hb).trans (hk e)
  cases hmicro : s.micro with
  | header k =>
    exact ⟨headerByte k, edge fun e => by rw [portEdge, hmicro],
      fun b => ⟨headerByte_pos k b s, headerByte_bytesConsumed k b s⟩⟩
  | prime k => exact ⟨primeByte k, edge fun e => by rw [portEdge, hmicro], fun b => ⟨rfl, rfl⟩⟩
  | refill n => exact ⟨refillByte n, edge fun e => by rw [portEdge, hmicro], fun b => ⟨rfl, rfl⟩⟩
  | boundary =>
    have hw : s.window ≠ marker := by simpa [hmicro] using hm
    exact ⟨tagByte, edge fun e => by rw [portEdge, hmicro]; exact if_neg hw,
      fun b => ⟨(handle_pos_source _ _).1, handle_bytesConsumed _ _⟩⟩
  | emit e => simp [hmicro] at hm
  | idle => simp [hmicro] at hm

/-! ### A pixel that waits, and a `start` that is ignored (R111, R118) -/

/-- R118: an edge without `out_ready` while a pixel is offered. -/
theorem clockEdge_of_waiting {e : Edge} {s : State} {p : Pixel} (h : s.offered = some p) (hrst : e.rst = false)
    (hready : e.outReady = false) : clockEdge e s = s := by
  obtain ⟨hb, em, hm, -⟩ := State.offered_eq_some.mp h
  simp [clockEdge_of_busy hrst hb, portEdge, hm, hready]

/-- R111: while a decode is in progress no edge looks at `start`. -/
theorem clockEdge_start_of_busy {e : Edge} {s : State} (start : Option (List Byte)) (hrst : e.rst = false)
    (hb : s.busy = true) : clockEdge { e with start := start } s = clockEdge e s :=
  (clockEdge_of_busy (e := { e with start := start }) hrst hb).trans (clockEdge_of_busy hrst hb).symm

/-! ### The reset state (R110) -/

theorem State.cacheValid_of_empty {s : State} (h : s.cache = Vector.replicate 64 none) (i : Fin 64) :
    s.cacheValid i = false := by
  rw [State.cacheValid, h, cacheLookup_replicate]; rfl

theorem State.reset_quiescent : State.reset.quiescent := rfl

theorem State.reset_inv : State.reset.Inv := State.inv_of_reset_registers (.inl ⟨rfl, rfl⟩)

/-! ### A word of the opcode table (R57) -/

/-- Every table word fills a window, so it decodes to what the window holds. -/
theorem decodeTableWord_eq (nbits w : Nat) : decodeTableWord nbits w = some (decodeWindow (tableWindow nbits w)) := by
  obtain ⟨rest, hrest⟩ := decode_window (tableWindow nbits w)
  rw [decodeTableWord, hrest]

end Sys2Proof.Machine

open Sys2Proof Sys2Proof.Machine

/-- Settles O49: the edge is an edge of a read; a byte offered goes to the read's work, which does not see `in_eof`. -/
theorem readTransferRules : Obligations.ReadTransferRules := by
  unfold Obligations.ReadTransferRules
  intro e s hrst hready
  obtain ⟨k, hedge, hcounts⟩ := clockEdge_of_inReady hready
  refine ⟨fun b hv hb => ?byte, fun h => ?noByte⟩
  case byte =>
    have htransfer : ∀ e' : Edge, e'.rst = false → e'.inValid = true → clockEdge e' s = k b s :=
      fun e' hrst' hv' => (hedge e' hrst').trans (readEdge_of_byte hv' hb)
    rw [htransfer e hrst hv, htransfer { e with inEof := false } hrst hv]
    exact ⟨(hcounts b).1, (hcounts b).2, rfl⟩
  case noByte =>
    rw [hedge e hrst]
    exact readEdge_of_no_byte k (h.imp_right State.nextByte?_eq_none.mpr)

/-- Settles O44: a `start` that is taken gives the reset registers, and a busy decoder does not look at it. -/
theorem startBeginsDecode : Obligations.StartBeginsDecode := by
  unfold Obligations.StartBeginsDecode
  refine ⟨fun e source s hrst hstart hp => ?taken, fun e s hrst hp => ?ignored⟩
  case taken =>
    exact ⟨_, clockEdge_of_start hrst hstart (State.quiescent_iff.mpr hp), rfl, rfl, rfl, rfl, rfl,
      fun _ => Vector.getElem_replicate _, State.cacheValid_of_empty (State.begin_cache source s),
      fun _ => Vector.getElem_replicate _, rfl, rfl, rfl, rfl⟩
  case ignored => exact (clockEdge_start_of_busy none hrst (State.busy_iff.mpr hp)).symm

/-- Settles O50: an offered pixel waits for `out_ready`, and the decoder asks for no byte meanwhile. -/
theorem backPressureHolds : Obligations.BackPressureHolds := by
  unfold Obligations.BackPressureHolds
  exact fun e s p h hrst hready => ⟨clockEdge_of_waiting h hrst hready, State.inReady_of_offered h⟩

/-- Settles O53: reset is the case of the reset registers in which no decode is asked for. -/
theorem resetMeetsInvariant : Obligations.ResetMeetsInvariant := by
  unfold Obligations.ResetMeetsInvariant
  exact State.reset_inv

/-- Settles O42: the registers one by one; IDLE is quiescent, so the ports are closed. -/
theorem resetValues : Obligations.ResetValues := by
  unfold Obligations.ResetValues
  exact ⟨rfl, rfl, rfl, rfl, rfl, fun _ => Vector.getElem_replicate _, State.cacheValid_of_empty State.reset_cache,
    fun _ => Vector.getElem_replicate _, rfl, rfl, State.inReady_of_quiescent State.reset_quiescent,
    State.offered_of_quiescent State.reset_quiescent⟩

/-- Settles O6: a table word decodes to what its window holds, and the seven windows are closed. -/
theorem tableWordsDecode : Obligations.TableWordsDecode := by
  unfold Obligations.TableWordsDecode
  simp only [decodeTableWord_eq, Option.some.injEq]
  decide

end
